-- ==== Sys2Proof/Word.lean ====
section
/-! DEFINITION. The bit-vector types of the wire and of the status window (spec 00_scope.md R11, R12). -/

namespace Sys2Proof

/-- One byte of the wire or of the landing buffer (R11). -/
abbrev Byte := BitVec 8

/-- A 16-bit field of a frame: `param`, `N`, or a signed PCM sample (R12, R116 to R118). -/
abbrev Half := BitVec 16

/-- A 32-bit word: a counter (CNT_W = 32, R8, R16) or a word of the status window (R58). -/
abbrev Word := BitVec 32

end Sys2Proof
end

