-- ==== Sys2Proof/Config.lean ====
section
/-! DEFINITION. The block's parameters (spec 00_scope.md R8), the parameters the spec leaves OPEN, and the
free values: what the environment answers (R17, R421) and which pending event is taken (R412). -/

namespace Sys2Proof

/-- An answer of the environment to a draw (60_exceptions.md R421). Every draw of the spec has two values:
`quiet` is READY, DONE or OK (the word of 95_test_vectors.md), `adverse` is NOT_READY, TIMEOUT or FAIL. -/
inductive Answer where
  | quiet
  | adverse
deriving DecidableEq, Repr, Inhabited

namespace Config

/-- Capacity of a sample buffer in slots, and the largest N of a Data frame (CAP, R8). -/
abbrev cap : Nat := 2048

/-- Sample rate in samples per second and channel (FS, R8); no rule depends on it (R465). -/
abbrev fs : Nat := 32000

/-- Width of an input sample (IN_BITS, R8). -/
abbrev inBits : Nat := 16

/-- Size of the landing buffer and configured receive length (LAND_SIZE, R8, R10). -/
abbrev landSize : Nat := 4100

/-- Length of a Command frame (CMD_LEN, R8). -/
abbrev cmdLen : Nat := 5

/-- Length of a Data frame's header (DATA_HDR_LEN, R8). -/
abbrev dataHdrLen : Nat := 4

/-- Fewest captured bytes handed to the parser (MIN_CAPTURE, R8). -/
abbrev minCapture : Nat := 4

/-- Largest volume percentage, and the volume at reset (VOL_MAX, R8). -/
abbrev volMax : Nat := 100

/-- SHIFT for an output resolution of `ob` bits (R8). -/
abbrev shiftOf (ob : Nat) : Nat := inBits - ob

/-- MID for an output resolution of `ob` bits (R8). -/
abbrev midOf (ob : Nat) : Nat := 2 ^ (ob - 1)

/-- MAX_CODE for an output resolution of `ob` bits (R8). -/
abbrev maxCodeOf (ob : Nat) : Nat := 2 ^ ob - 1

/-- POLL_LIMIT is OPEN in the spec (R8, R419); no rule depends on it. -/
opaque pollLimit : Nat

/-- T_GAP is OPEN in the spec (R8, R461); no rule depends on it. -/
opaque tGap : Nat

/-- WINDOW_BASE is OPEN in the spec (R8, R93): where the platform places the status window. DESIGN CHOICE,
entry 21: a platform address is a natural number of no stated width, and nothing wraps. -/
opaque windowBase : Nat

/-- The free value of a draw that `env.answers` does not hold (R17, R421). DESIGN CHOICE, entry 3. -/
opaque freeAnswer : Nat → Answer

/-- The free value of a choice among pending events that `env.choices` does not hold (R412).
DESIGN CHOICE, entry 2. -/
opaque freeChoice : Nat → Nat

end Config

/-- The configuration arguments of R8 that a rule of the block or one of its two lines depends on (D2, D11, D24;
93_implementation_defined.md U11, U12). They stand in State, no operation writes them, and every rule holds for
each of their values (entry 14). -/
structure Params where
  /-- OUT_BITS, the width of an output code, in 1..16. -/
  outBits : Nat
  /-- SEL_ACTIVE_LOW: the select line is active when low. -/
  selActiveLow : Bool
  /-- READY_ACTIVE_HIGH: the ready line is asserted when high. -/
  readyActiveHigh : Bool
deriving DecidableEq, Repr

/-- The values this hardware takes (the table of R8). -/
def Params.hardware : Params where
  outBits := 12
  selActiveLow := true
  readyActiveHigh := true

/-- An output code: an unsigned OUT_BITS-bit value, 0..MAX_CODE (00_scope.md R20). Its range depends on a
configuration argument, so it is part of the canonical form of a sample buffer and not of this type. -/
abbrev Code := Nat

end Sys2Proof
end

