-- ==== Sys2Proof/Syntax.lean ====
section
/-! DEFINITION. The block's operations: one constructor for each row of spec/opcode_table.json. The five frame
operations are those of spec 30_encoding.md R121, the nine events those of R130. -/

namespace Sys2Proof

/-- A channel id: `channel ∈ {0,1}` (R114). -/
inductive Chan where
  | ch0
  | ch1
deriving DecidableEq, Repr

/-- The other channel. -/
def Chan.other : Chan → Chan
  | .ch0 => .ch1
  | .ch1 => .ch0

/-- The channel number. -/
def Chan.toNat : Chan → Nat
  | .ch0 => 0
  | .ch1 => 1

/-- How wide a platform access to the status window is. Only `word` is defined (10_state.md R62). -/
inductive AccessSize where
  | byte
  | half
  | word
deriving DecidableEq, Repr

/-- The operations of the block. Event operands are numbers as the environment gives them, so that one out
of its range (R131) is a term that `Instr.wf` refuses. -/
inductive Instr where
  /-- PLAY ch; the param bytes are carried and ignored (R116, R262). -/
  | play (ch : Chan) (param : Half)
  /-- STOP ch; the param bytes are carried and ignored (R116, R263). -/
  | stop (ch : Chan) (param : Half)
  /-- VOLUME ch, v (R264). -/
  | volume (ch : Chan) (param : Half)
  /-- RESET ch; the param bytes are carried and ignored (R116, R265). -/
  | reset (ch : Chan) (param : Half)
  /-- DATA ch with its samples in frame order; N is their number (R267). -/
  | data (ch : Chan) (samples : List Half)
  /-- The select line becomes active (R191, R192). -/
  | selAssert
  /-- The select line becomes inactive (R196, R197). -/
  | selDeassert
  /-- The link delivers one byte (R193, R194). -/
  | rxByte (b : Nat)
  /-- The receive engine reports an error (R195). -/
  | rxError
  /-- Output engine `ch` passed the half-way point (R304). -/
  | drainHalf (ch : Nat)
  /-- Output engine `ch` consumed its whole buffer (R305 to R307). -/
  | drainComplete (ch : Nat)
  /-- The platform reads the status window at byte offset `off` (R360). -/
  | statusRead (off : Nat) (size : AccessSize)
  /-- The platform writes `v` at byte offset `off` of the status window (R361 to R363). -/
  | ctrlWrite (off : Nat) (size : AccessSize) (v : Nat)
  /-- Platform reset (R450). -/
  | sysReset
deriving DecidableEq, Repr

/-- The nine input events of R130; the other five constructors are frame operations, which happen inside
SEL_DEASSERT. -/
def Instr.isEvent : Instr → Bool
  | .play _ _ => false
  | .stop _ _ => false
  | .volume _ _ => false
  | .reset _ _ => false
  | .data _ _ => false
  | .selAssert => true
  | .selDeassert => true
  | .rxByte _ => true
  | .rxError => true
  | .drainHalf _ => true
  | .drainComplete _ => true
  | .statusRead _ _ => true
  | .ctrlWrite _ _ _ => true
  | .sysReset => true

/-- The events whose order the wire fixes (60_exceptions.md R412): the select edges and the bytes. -/
def Instr.isWire : Instr → Bool
  | .play _ _ => false
  | .stop _ _ => false
  | .volume _ _ => false
  | .reset _ _ => false
  | .data _ _ => false
  | .selAssert => true
  | .selDeassert => true
  | .rxByte _ => true
  | .rxError => false
  | .drainHalf _ => false
  | .drainComplete _ => false
  | .statusRead _ _ => false
  | .ctrlWrite _ _ _ => false
  | .sysReset => false

/-- Why a captured span is no frame: the ProtocolErrors of 60_exceptions.md R402, each with the `info` it is
recorded with. -/
inductive Reject where
  /-- Fewer than MIN_CAPTURE bytes (R198). -/
  | runt (n : Nat)
  /-- Byte 0 is neither 0xC0 nor 0xDA (R235). -/
  | badHeader (b : Byte)
  /-- A Command header with fewer than 5 bytes (R232). -/
  | cmdShort (n : Nat)
  /-- A channel byte that is neither 0 nor 1 (R260, R267). -/
  | badChannel (b : Byte)
  /-- A Data frame whose N is 0 or above CAP (R233). -/
  | badCount (n : Nat)
  /-- A Data frame with fewer bytes than its N asks for (R234). -/
  | dataShort (n : Nat)
  /-- An unrecognized command byte (R266). -/
  | badCommand (b : Byte)
deriving DecidableEq, Repr

end Sys2Proof
end

