-- ==== Sys2Proof/WellFormed.lean ====
section
/-! DEFINITION. Which operations are inside the spec's domain: operand ranges of spec 30_encoding.md R117,
R131 and access rules of 10_state.md R62. -/

namespace Sys2Proof

/-- A window access the spec defines: an aligned 32-bit word at an offset in 0x00..0x7C (R62, R131). -/
def wordAccess (off : Nat) (size : AccessSize) : Bool :=
  decide (off ≤ 0x7C) && (decide (off % 4 = 0) && decide (size = .word))

/-- The operand ranges of R117 (1 ≤ N ≤ CAP), R131 and R62. -/
def Instr.wf : Instr → Bool
  | .play _ _ => true
  | .stop _ _ => true
  | .volume _ _ => true
  | .reset _ _ => true
  | .data _ xs => decide (1 ≤ xs.length) && decide (xs.length ≤ Config.cap)
  | .selAssert => true
  | .selDeassert => true
  | .rxByte b => decide (b < 256)
  | .rxError => true
  | .drainHalf ch => decide (ch < 2)
  | .drainComplete ch => decide (ch < 2)
  | .statusRead off size => wordAccess off size
  | .ctrlWrite off size v => wordAccess off size && decide (v < 2 ^ 32)
  | .sysReset => true

end Sys2Proof
end

