-- ==== Sys2Proof/Decode.lean ====
section
/-! DEFINITION. Decoding of a captured span, total on any bytes (spec 42_parser.md R230 to R237 and the
checks of 43_dispatcher.md R260, R266, R267), the encoder written from the same tables (30_encoding.md R111,
R112, R127), the opcode rows of R121, and the reading of an opcode-table word. -/

namespace Sys2Proof

/-- `u16be` (00_scope.md R12): the first byte is the high one. -/
def u16be (b0 b1 : Byte) : Half := b0 ++ b1

/-- `s16le` (R12): the first byte is the low one; the sign is in the reading `BitVec.toInt`. -/
def s16le (b0 b1 : Byte) : Half := b1 ++ b0

/-- Bits 15:8 of a 16-bit field. -/
def hiByte (h : Half) : Byte := h.extractLsb' 8 8

/-- Bits 7:0 of a 16-bit field. -/
def loByte (h : Half) : Byte := h.extractLsb' 0 8

/-- Byte `k` of a captured span; read only below the span's length (R230). -/
def byteAt (bs : List Byte) (k : Nat) : Byte := bs.getD k 0

/-- The channel byte compared whole (R114). -/
def Chan.ofByte (b : Byte) : Option Chan :=
  if b = 0x00 then some .ch0 else if b = 0x01 then some .ch1 else none

/-- The channel byte of a frame (R111, R112). -/
def Chan.toByte : Chan → Byte
  | .ch0 => 0x00
  | .ch1 => 0x01

/-- The first `n` samples of a payload, low byte first (R118, R236). -/
def decodeSamples : Nat → List Byte → List Half
  | n + 1, lo :: hi :: rest => s16le lo hi :: decodeSamples n rest
  | _, _ => []

/-- The command codes, compared whole (R115, R261), after the channel (R260). -/
def decodeCode (ch : Chan) (cmd : Byte) (param : Half) : Except Reject Instr :=
  if cmd = 0x01 then .ok (.play ch param)
  else if cmd = 0x02 then .ok (.stop ch param)
  else if cmd = 0x03 then .ok (.volume ch param)
  else if cmd = 0xFF then .ok (.reset ch param)
  else .error (.badCommand cmd)

/-- parse_command (R232) and the channel check of dispatch_command (R260). -/
def decodeCommand (bs : List Byte) : Except Reject Instr :=
  if bs.length < Config.cmdLen then .error (.cmdShort bs.length)
  else
    match Chan.ofByte (byteAt bs 1) with
    | none => .error (.badChannel (byteAt bs 1))
    | some ch => decodeCode ch (byteAt bs 2) (u16be (byteAt bs 3) (byteAt bs 4))

/-- The declared sample count N of a Data frame (R117). -/
def sampleCount (bs : List Byte) : Nat := (u16be (byteAt bs 2) (byteAt bs 3)).toNat

/-- parse_data (R233, R234, R236) and the channel check of dispatch_data (R267), in the order of R237. -/
def decodeData (bs : List Byte) : Except Reject Instr :=
  if sampleCount bs = 0 ∨ sampleCount bs > Config.cap then .error (.badCount (sampleCount bs))
  else if bs.length < Config.dataHdrLen + 2 * sampleCount bs then .error (.dataShort bs.length)
  else
    match Chan.ofByte (byteAt bs 1) with
    | none => .error (.badChannel (byteAt bs 1))
    | some ch => .ok (.data ch (decodeSamples (sampleCount bs) (bs.drop Config.dataHdrLen)))

/-- What a captured span is: a frame operation, or the check that drops it (R120, R198, R230, R237). -/
def decode (bs : List Byte) : Except Reject Instr :=
  if bs.length < Config.minCapture then .error (.runt bs.length)
  else if byteAt bs 0 = 0xC0 then decodeCommand bs
  else if byteAt bs 0 = 0xDA then decodeData bs
  else .error (.badHeader (byteAt bs 0))

/-- A Command frame (R111). -/
def encodeCommand (ch : Chan) (cmd : Byte) (param : Half) : List Byte :=
  [0xC0, ch.toByte, cmd, hiByte param, loByte param]

/-- The payload of a Data frame (R112): each sample low byte first. -/
def encodeSamples : List Half → List Byte
  | [] => []
  | x :: xs => loByte x :: hiByte x :: encodeSamples xs

/-- A Data frame (R112): N is the number of samples. -/
def encodeData (ch : Chan) (xs : List Half) : List Byte :=
  [0xDA, ch.toByte, hiByte (BitVec.ofNat 16 xs.length), loByte (BitVec.ofNat 16 xs.length)] ++ encodeSamples xs

/-- The bytes of a frame operation (R111, R112, R127); an event has no encoding (spec/opcode_table.json). -/
def encode : Instr → Option (List Byte)
  | .play ch p => some (encodeCommand ch 0x01 p)
  | .stop ch p => some (encodeCommand ch 0x02 p)
  | .volume ch p => some (encodeCommand ch 0x03 p)
  | .reset ch p => some (encodeCommand ch 0xFF p)
  | .data ch xs => some (encodeData ch xs)
  | .selAssert => none
  | .selDeassert => none
  | .rxByte _ => none
  | .rxError => none
  | .drainHalf _ => none
  | .drainComplete _ => none
  | .statusRead _ _ => none
  | .ctrlWrite _ _ _ => none
  | .sysReset => none

/-- The 40-bit word W of R111: byte 0 in bits 39:32. -/
def commandWord (bs : List Byte) : BitVec 40 :=
  byteAt bs 0 ++ byteAt bs 1 ++ byteAt bs 2 ++ byteAt bs 3 ++ byteAt bs 4

/-- The 32-bit word H of R112: byte 0 in bits 31:24. -/
def headerWord (bs : List Byte) : BitVec 32 :=
  byteAt bs 0 ++ byteAt bs 1 ++ byteAt bs 2 ++ byteAt bs 3

/-- A Command row of R121: its match word; every Command row has the mask 0xFFFEFF0000. -/
def matchesCommandRow (row : BitVec 40) (bs : List Byte) : Bool :=
  decide (Config.cmdLen ≤ bs.length) && decide (commandWord bs &&& 0xFFFEFF0000 = row)

/-- The Data row of R121. -/
def matchesDataRow (bs : List Byte) : Bool :=
  decide (headerWord bs &&& 0xFFFE0000 = 0xDA000000) &&
    (decide (1 ≤ sampleCount bs) && (decide (sampleCount bs ≤ Config.cap) &&
      decide (Config.dataHdrLen + 2 * sampleCount bs ≤ bs.length)))

/-- The `k` low bytes of `w`, the most significant first: the opcode table numbers a frame as one word whose
byte 0 is in the top bits (R111, R112; entry 13). -/
def tableBytes : Nat → Nat → List Byte
  | 0, _ => []
  | k + 1, w => BitVec.ofNat 8 (w / 256 ^ k) :: tableBytes k w

/-- How many bytes the frame takes whose table bits are these bytes: a Data header with a legal N asks for
its payload as well (R124). -/
def frameLength (bs : List Byte) : Nat :=
  if byteAt bs 0 = 0xDA ∧ sampleCount bs ≤ Config.cap then
    max bs.length (Config.dataHdrLen + 2 * sampleCount bs)
  else bs.length

/-- The frame of an opcode-table word: its bytes, then zeros up to the frame's length (entry 13). -/
def tableFrame (nbits w : Nat) : List Byte :=
  let bs := tableBytes (nbits / 8) w
  bs ++ List.replicate (frameLength bs - bs.length) 0

/-- The operation the decoder reads from an opcode-table word. -/
def decodeTableWord (nbits w : Nat) : Option Instr :=
  match decode (tableFrame nbits w) with
  | .ok i => some i
  | .error _ => none

end Sys2Proof
end

