-- ==== Sys2Proof/Machine/State.lean ====
section
/-! DEFINITION. The state of the block as plain data (spec 10_state.md R32 to R54), the model's own fields
(inputs waiting, answers waiting, outputs emitted), why a step can stop, and the state after reset (R63). -/

namespace Sys2Proof.Machine

/-- The receiver state (R33). -/
inductive RxState where
  | idle
  | capturing
deriving DecidableEq, Repr

/-- Which of a channel's two sample buffers (R37, R38). -/
inductive BufSel where
  | b0
  | b1
deriving DecidableEq, Repr

/-- `1 - b` for a buffer index. -/
def BufSel.other : BufSel → BufSel
  | .b0 => .b1
  | .b1 => .b0

/-- What the block last commanded an output engine to do (R46). -/
inductive OutState where
  | off
  | running
  | fallback
deriving DecidableEq, Repr

/-- The error codes of 60_exceptions.md R402. -/
inductive ErrorCode where
  | rxNotReady
  | rxPollTimeout
  | rxError
  | outPollTimeout
  | runt
  | badHeader
  | cmdShort
  | badChannel
  | badCount
  | dataShort
  | badCommand
  | startFail
  | underrun
deriving DecidableEq, Repr

/-- The actions the block emits (60_exceptions.md R420). -/
inductive Action where
  /-- RX_ARM(LAND, len). -/
  | rxArm (len : Nat)
  | rxForceReset
  | rxTerminate
  /-- OUT_START(ch, b, len) on `buf[b]`. -/
  | outStart (ch : Chan) (b : BufSel) (len : Nat)
  | outDisable (ch : Chan)
  | outFallback (ch : Chan)
  | clkStart
  | clkStop
  /-- DIAG(code, info): emitted; whether the sink keeps it is not in the model (R408, entry 4). -/
  | diag (code : ErrorCode) (info : Option Nat)
deriving DecidableEq, Repr

/-- The landing buffer (R36, R81): addresses strictly rising, no entry equal to what an unlisted address
reads as (`landDefault`). -/
abbrev Memory := List Host.Cell

/-- What an unlisted byte of the landing buffer reads as. DESIGN CHOICE, entry 6: the spec leaves the contents
at reset unspecified and never read. -/
abbrev landDefault : Byte := 0

/-- One sample buffer (R37, R82): slots strictly rising, no entry equal to MID, which is what an unlisted slot
reads as (the reset contents, R63), so that no slot listed is MID in every slot whatever OUT_BITS is. -/
abbrev Slots := List (Nat × Code)

/-- ReceptionContext (R33 to R36). -/
structure Reception where
  /-- `rx_state` (R33). -/
  state : RxState
  /-- `rx_armed` (R34). -/
  armed : Bool
  /-- `rx_count` (R35). -/
  count : Nat
  /-- `land` (R36). -/
  land : Memory
deriving DecidableEq, Repr

/-- AudioChannel (R37 to R46). -/
structure Channel where
  /-- `buf[0]` (R37). -/
  buf0 : Slots
  /-- `buf[1]` (R37). -/
  buf1 : Slots
  /-- `act` (R38). -/
  act : BufSel
  /-- `fill_index` (R39). -/
  fillIndex : Nat
  /-- `is_playing` (R40). -/
  isPlaying : Bool
  /-- `underrun` (R41). -/
  underrun : Bool
  /-- `volume` (R42). -/
  volume : Nat
  /-- `total_samples` (R43). -/
  totalSamples : Word
  /-- `swaps` (R44). -/
  swaps : Word
  /-- `underruns` (R45). -/
  underruns : Word
  /-- `out_state` (R46). -/
  outState : OutState
deriving DecidableEq, Repr

/-- ErrorStats (R48 to R53). -/
structure ErrorStats where
  /-- `transport_faults` (R48). -/
  transportFaults : Word
  /-- `invalid_header` (R49). -/
  invalidHeader : Word
  /-- `invalid_chan_len` (R50). -/
  invalidChanLen : Word
  /-- `command_frames` (R51). -/
  commandFrames : Word
  /-- `data_frames` (R52). -/
  dataFrames : Word
  /-- `last_captured` (R53). -/
  lastCaptured : Word
deriving DecidableEq, Repr

/-- What an output engine really does (R64), which may differ from what the block last commanded it to do. -/
inductive Drain where
  | stopped
  /-- Started and draining its buffer. -/
  | draining
  /-- Its forced disable reached the poll ceiling (R302): the disable has not completed, so the engine may go on
  draining, until it completes or the engine is started again (44_output_driver.md R308; entry 22). -/
  | undisabled
deriving DecidableEq, Repr

/-- An output engine's own state (R64): the environment's, held beside the block's. -/
structure Engine where
  /-- What it does, and with that whether its last forced disable completed. -/
  drain : Drain
  /-- Its drain position: the slot it reads at the next tick of the sample clock. -/
  position : Nat
deriving DecidableEq, Repr

/-- The external collaborators' own state (R64); the engine readiness and the events not yet delivered are in
`Env`. -/
structure Collaborators where
  engine0 : Engine
  engine1 : Engine
  /-- The shared clock's phase: how many steps of a running block come before its next tick, none where the
  environment has not said yet (entry 22). -/
  clockPhase : Option Nat
deriving DecidableEq, Repr

/-- The environment's side of the machine, the MODEL's own fields: what it has raised, and what it will answer
and choose. -/
structure Env where
  /-- Events raised and not yet taken, in the order they were raised (R411; entry 1). -/
  pending : List Instr
  /-- The next answers to draws (R421; entry 3). -/
  answers : List Answer
  /-- How many free answers have been taken (entry 3). -/
  answerCount : Nat
  /-- The next choices among pending events (R412; entry 2). -/
  choices : List Nat
  /-- How many free choices have been taken (entry 2). -/
  choiceCount : Nat
deriving DecidableEq, Repr

/-- The machine: the record of R32, then the model's own fields. -/
structure State where
  /-- The configuration arguments of R8, which no operation writes (entry 14). -/
  params : Params
  rx : Reception
  /-- `C[0]`. -/
  c0 : Channel
  /-- `C[1]`. -/
  c1 : Channel
  /-- `clk_running` (R47). -/
  clkRunning : Bool
  stats : ErrorStats
  /-- `ready_out` (R54). -/
  readyOut : Bool
  env : Env
  /-- The external collaborators' own state (R64; entry 22). -/
  ext : Collaborators
  /-- The actions emitted so far, oldest first (R17; entry 4). -/
  trace : List Action
  /-- What the last STATUS_READ returned (R360; entry 5). -/
  readData : Option Word
deriving DecidableEq, Repr

/-- Why the machine stops with a fault. -/
inductive Fault where
  /-- A status read found the value 3 in CH_STATUS.OUT_STATE (93_implementation_defined.md U22: a model bug).
  Raised by STATUS_READ of a CH_STATUS word only, and by no state of this type: safe. -/
  | outStateReserved
deriving DecidableEq, Repr

/-- Why the machine gives no meaning. -/
inductive Refusal where
  /-- An operation without a meaning yet; raised by exec's refused arms only: safe. -/
  | notModelled (mnemonic : String)
  /-- An event operand outside its range (30_encoding.md R131, U20: `refuse`); raised by RX_BYTE, DRAIN_HALF,
  DRAIN_COMPLETE, STATUS_READ and CTRL_WRITE: safe. -/
  | operandOutOfRange
  /-- A window access that is not an aligned 32-bit word (10_state.md R62, U19: `refuse`); raised by STATUS_READ
  and CTRL_WRITE: safe. -/
  | notAnAlignedWord
  /-- A frame operation raised as if it were an event; the events are those of R130. Raised by step: safe. -/
  | notAnEvent
deriving DecidableEq, Repr

/-- A channel after init (R150, R63). -/
def Channel.reset : Channel where
  buf0 := []
  buf1 := []
  act := .b0
  fillIndex := 0
  isPlaying := false
  underrun := false
  volume := Config.volMax
  totalSamples := 0
  swaps := 0
  underruns := 0
  outState := .off

/-- ErrorStats after reset (R63). -/
def ErrorStats.reset : ErrorStats where
  transportFaults := 0
  invalidHeader := 0
  invalidChanLen := 0
  commandFrames := 0
  dataFrames := 0
  lastCaptured := 0

/-- The collaborators after a reset: quiet, as 70_reset_and_hazards.md R451 says of them. -/
def Collaborators.quiet : Collaborators where
  engine0 := { drain := .stopped, position := 0 }
  engine1 := { drain := .stopped, position := 0 }
  clockPhase := none

/-- The machine right after reset (R63, R450, R452) with this hardware's parameters (R8); the model's own fields
are entries 1 to 5, 14 and 22. -/
def State.reset : State where
  params := Params.hardware
  rx := { state := .idle, armed := false, count := 0, land := [] }
  c0 := Channel.reset
  c1 := Channel.reset
  clkRunning := false
  stats := ErrorStats.reset
  readyOut := true
  env := { pending := [], answers := [], answerCount := 0, choices := [], choiceCount := 0 }
  ext := Collaborators.quiet
  trace := []
  readData := none

end Sys2Proof.Machine
end

