-- ==== Sys2Proof/Machine/Memory.lean ====
section
/-! DEFINITION. Sparse memories in one canonical form, and the two storage spaces made of them: the landing
buffer (bytes) and the sample buffers (codes) of spec 20_memory.md R80 to R82. -/

namespace Sys2Proof.Machine

/-- MemRead (00_scope.md R15): the cell at `a`, or `d` where none is listed. -/
def cellsRead {α : Type} (d : α) : List (Nat × α) → Nat → α
  | [], _ => d
  | (b, v) :: m, a => if a = b then v else cellsRead d m a

/-- MemWrite (R15), keeping the canonical form: writing `d` removes the cell. -/
def cellsWrite {α : Type} [DecidableEq α] (d : α) : List (Nat × α) → Nat → α → List (Nat × α)
  | [], a, v => if v = d then [] else [(a, v)]
  | (b, w) :: m, a, v =>
    if a < b then (if v = d then (b, w) :: m else (a, v) :: (b, w) :: m)
    else if a = b then (if v = d then m else (a, v) :: m)
    else (b, w) :: cellsWrite d m a v

/-- The canonical form from address `lo` up to below `hi`: strictly rising, inside the space, no cell equal
to `d`. -/
def cellsWf {α : Type} [DecidableEq α] (d : α) (hi : Nat) : Nat → List (Nat × α) → Bool
  | _, [] => true
  | lo, (b, v) :: m => decide (lo ≤ b) && (decide (b < hi) && (decide (v ≠ d) && cellsWf d hi (b + 1) m))

/-- `MemRead(LAND + a, 1)` (R81). -/
def Memory.read (m : Memory) (a : Nat) : Byte := cellsRead landDefault m a

/-- `MemWrite(LAND + a, 1, v)` (R81). -/
def Memory.write (m : Memory) (a : Nat) (v : Byte) : Memory := cellsWrite landDefault m a v

/-- The canonical form of the landing buffer, inside 0..LAND_SIZE-1 (R80). -/
def Memory.wf (m : Memory) : Bool := cellsWf landDefault Config.landSize 0 m

/-- `MemRead(SMP(ch, b) + k, 1)` (R82), at an output resolution of `ob` bits. -/
def Slots.read (m : Slots) (ob k : Nat) : Code := cellsRead (Config.midOf ob) m k

/-- `MemWrite(SMP(ch, b) + k, 1, v)` (R82), at an output resolution of `ob` bits. -/
def Slots.write (m : Slots) (ob k : Nat) (v : Code) : Slots := cellsWrite (Config.midOf ob) m k v

/-- The canonical form of a sample buffer, inside 0..CAP-1 (R80), every slot holding a code in 0..MAX_CODE (R37,
item 7 of R57). -/
def Slots.wf (m : Slots) (ob : Nat) : Bool :=
  cellsWf (Config.midOf ob) Config.cap 0 m && m.all fun c => decide (c.2 ≤ Config.maxCodeOf ob)

/-- A sample buffer with MID in every slot. -/
def Slots.midScale : Slots := []

/-- `C[ch].buf[b]`. -/
def Channel.buf (c : Channel) : BufSel → Slots
  | .b0 => c.buf0
  | .b1 => c.buf1

/-- Replace `C[ch].buf[b]`. -/
def Channel.setBuf (c : Channel) (b : BufSel) (m : Slots) : Channel :=
  match b with
  | .b0 => { c with buf0 := m }
  | .b1 => { c with buf1 := m }

/-- `C[ch]` (R32). -/
def State.chan (s : State) : Chan → Channel
  | .ch0 => s.c0
  | .ch1 => s.c1

/-- Replace `C[ch]`. -/
def State.setChan (s : State) (ch : Chan) (c : Channel) : State :=
  match ch with
  | .ch0 => { s with c0 := c }
  | .ch1 => { s with c1 := c }

/-- The engine of channel `ch` (R64). -/
def Collaborators.engine (x : Collaborators) : Chan → Engine
  | .ch0 => x.engine0
  | .ch1 => x.engine1

/-- Replace the engine of channel `ch`. -/
def Collaborators.setEngine (x : Collaborators) (ch : Chan) (e : Engine) : Collaborators :=
  match ch with
  | .ch0 => { x with engine0 := e }
  | .ch1 => { x with engine1 := e }

/-- The captured span `land[0..rx_count-1]` (R230). No index at or above LAND_SIZE exists (R80), so a count
above it, which no run reaches (R57 item 5), reads the whole buffer (entry 16). -/
def State.captured (s : State) : List Byte :=
  (List.range (min s.rx.count Config.landSize)).map s.rx.land.read

end Sys2Proof.Machine
end

