-- ==== Sys2Proof/Machine/Operands.lean ====
section
/-! DEFINITION. Operand forms: an engine number as a channel id (spec 30_encoding.md R131), sample conversion and volume
scaling (40_audio_channel.md R151, R152), the window's offsets as named registers (10_state.md R58), and the
electrical readings of the two lines (R54, 00_scope.md R8). -/

namespace Sys2Proof.Machine

/-- The channel of an output engine number, 0 or 1 (R131). -/
def chanOfNat : Nat → Option Chan
  | 0 => some .ch0
  | 1 => some .ch1
  | _ => none

/-- `asr(v, n) = floor(v / 2^n)` (00_scope.md R13). -/
def asr (v : Int) (n : Nat) : Int := v / 2 ^ n

/-- `clamp(v, lo, hi) = min(max(v, lo), hi)` (R13). -/
def clamp (v lo hi : Int) : Int := min (max v lo) hi

/-- convert (R151) at an output resolution of `ob` bits, as a mathematical integer. -/
def convertAt (ob : Nat) (x : Half) : Int := asr x.toInt (Config.shiftOf ob) + Config.midOf ob

/-- scale (R152) at an output resolution of `ob` bits, as a mathematical integer; the division truncates
toward zero (R13, D4). -/
def scaleAt (ob : Nat) (code : Int) (vol : Nat) : Int :=
  clamp
    (if vol < 100 then Config.midOf ob + Int.tdiv ((code - Config.midOf ob) * vol) 100 else code)
    0 (Config.maxCodeOf ob)

/-- `scale(convert(x), vol)` as the code that fill stores (R153) at an output resolution of `ob` bits; the integer
is in range (R160), so the narrowing loses nothing. -/
def sampleCode (ob vol : Nat) (x : Half) : Code := (scaleAt ob (convertAt ob x) vol).toNat

/-- The words of a channel's part of the window (R58). -/
inductive ChanReg where
  | chStatus
  | fillIndex
  | volume
  | totalSamples
  | swaps
  | underruns
deriving DecidableEq, Repr

/-- The words of the status window (R58). -/
inductive WindowReg where
  | status
  | rxCount
  | lastCaptured
  | transportFaults
  | invalidHeader
  | invalidChanLen
  | commandFrames
  | dataFrames
  | chan (ch : Chan) (r : ChanReg)
  | ctrl
  | reserved
deriving DecidableEq, Repr

/-- The map of R58 inside one channel's 0x20 bytes. -/
def chanReg (ch : Chan) (off : Nat) : WindowReg :=
  if off = 0x00 then .chan ch .chStatus
  else if off = 0x04 then .chan ch .fillIndex
  else if off = 0x08 then .chan ch .volume
  else if off = 0x0C then .chan ch .totalSamples
  else if off = 0x10 then .chan ch .swaps
  else if off = 0x14 then .chan ch .underruns
  else .reserved

/-- The map of R58, for an aligned word offset. -/
def windowReg (off : Nat) : WindowReg :=
  if off = 0x00 then .status
  else if off = 0x04 then .rxCount
  else if off = 0x08 then .lastCaptured
  else if off = 0x0C then .transportFaults
  else if off = 0x10 then .invalidHeader
  else if off = 0x14 then .invalidChanLen
  else if off = 0x18 then .commandFrames
  else if off = 0x1C then .dataFrames
  else if off < 0x40 then chanReg .ch0 (off - 0x20)
  else if off < 0x60 then chanReg .ch1 (off - 0x40)
  else if off = 0x60 then .ctrl
  else .reserved

/-- The window offset of a platform address, where it falls in the window (R58, R93). DESIGN CHOICE, entry 21:
addresses are natural numbers of no stated width, and the window never wraps past a top address. -/
def windowOffset (a : Nat) : Option Nat :=
  if Config.windowBase ≤ a ∧ a < Config.windowBase + 0x80 then some (a - Config.windowBase) else none

/-- The event of an edge to this level on the select line (R130, SEL_ACTIVE_LOW of R8). -/
def selectEvent (p : Params) (high : Bool) : Instr := if high = p.selActiveLow then .selDeassert else .selAssert

/-- The level of the ready pin (R54, R344, READY_ACTIVE_HIGH of R8). -/
def State.readyPin (s : State) : Bool := if s.params.readyActiveHigh then s.readyOut else !s.readyOut

end Sys2Proof.Machine
end

