-- ==== Sys2Proof/Machine/Flags.lean ====
section
/-! DEFINITION. Every flag computation: the ready line (spec 45_flow_controller.md R340, R341), pre-buffer
status (10_state.md R55), the STATUS and CH_STATUS words (R59, R60) and the window's words (R58). -/

namespace Sys2Proof.Machine

/-- flow(s) (R340). -/
def flow (s : State) : Bool :=
  if s.c0.isPlaying || s.c1.isPlaying then true
  else decide (s.c0.fillIndex < Config.cap) && decide (s.c1.fillIndex < Config.cap)

/-- The end of every event (R341): `ready_out <- flow(s)`. -/
def State.endEvent (s : State) : State := { s with readyOut := flow s }

/-- prebuf_ready(ch) (R55). -/
def Channel.prebufReady (c : Channel) : Bool := decide (Config.cap / 2 ≤ c.fillIndex)

/-- A status bit in place `k` of a word. -/
def bitAt (k : Nat) (b : Bool) : Word := if b then BitVec.ofNat 32 (2 ^ k) else 0

/-- STATUS (R59). -/
def statusWord (s : State) : Word :=
  bitAt 0 s.readyOut ||| bitAt 1 (decide (s.rx.state = .capturing)) ||| bitAt 2 s.rx.armed ||| bitAt 3 s.clkRunning

/-- ACT as a bit (R60). -/
def BufSel.toBool : BufSel → Bool
  | .b0 => false
  | .b1 => true

/-- OUT_STATE as a field (R60). -/
def OutState.code : OutState → Nat
  | .off => 0
  | .running => 1
  | .fallback => 2

/-- CH_STATUS(ch) (R60). -/
def chStatusWord (c : Channel) : Word :=
  bitAt 0 c.isPlaying ||| bitAt 1 c.underrun ||| bitAt 2 c.prebufReady ||| bitAt 3 c.act.toBool |||
    BitVec.ofNat 32 (c.outState.code <<< 4)

/-- A word of a channel's part of the window (R58). -/
def chanWord (c : Channel) : ChanReg → Word
  | .chStatus => chStatusWord c
  | .fillIndex => BitVec.ofNat 32 c.fillIndex
  | .volume => BitVec.ofNat 32 c.volume
  | .totalSamples => c.totalSamples
  | .swaps => c.swaps
  | .underruns => c.underruns

/-- A word of the status window; reserved words and CTRL read 0 (R58, R61, R62). -/
def windowWord (s : State) : WindowReg → Word
  | .status => statusWord s
  | .rxCount => BitVec.ofNat 32 s.rx.count
  | .lastCaptured => s.stats.lastCaptured
  | .transportFaults => s.stats.transportFaults
  | .invalidHeader => s.stats.invalidHeader
  | .invalidChanLen => s.stats.invalidChanLen
  | .commandFrames => s.stats.commandFrames
  | .dataFrames => s.stats.dataFrames
  | .chan ch r => chanWord (s.chan ch) r
  | .ctrl => 0
  | .reserved => 0

/-- U22: a CH_STATUS word whose OUT_STATE field is 3. -/
def outStateReservedIn : WindowReg → Word → Bool
  | .chan _ .chStatus, w => decide (w.extractLsb' 4 2 = 3)
  | _, _ => false

end Sys2Proof.Machine
end

