-- ==== Sys2Proof/Machine/Ops.lean ====
section
/-! DEFINITION. The operations the meanings share: emitting an action and drawing an answer (spec 00_scope.md
R17), recording an error (60_exceptions.md R401, R402: the block's only form of exception), the AudioChannel
primitives (40_audio_channel.md), the OutputDriver primitives (44_output_driver.md), and the receiver's. -/

namespace Sys2Proof.Machine

/-! ## Actions and draws -/

/-- `emit A` (R17). -/
def emit (a : Action) (s : State) : State := { s with trace := s.trace ++ [a] }

/-- The value of the next draw (R17, R421): the environment's next answer, or a free value (entry 3). -/
def State.answer (s : State) : Answer :=
  match s.env.answers with
  | a :: _ => a
  | [] => Config.freeAnswer s.env.answerCount

/-- The environment after one answer. -/
def Env.afterDraw (e : Env) : Env :=
  match e.answers with
  | _ :: as => { e with answers := as }
  | [] => { e with answerCount := e.answerCount + 1 }

/-- The state after one draw. -/
def State.drawn (s : State) : State := { s with env := s.env.afterDraw }

/-! ## Recording errors -/

/-- The counter column of R402. -/
inductive Counter where
  | transportFaults
  | invalidHeader
  | invalidChanLen
deriving DecidableEq, Repr

/-- The counter an error's record increments, if any (R402). -/
def ErrorCode.counter : ErrorCode → Option Counter
  | .rxNotReady => some .transportFaults
  | .rxPollTimeout => some .transportFaults
  | .rxError => some .transportFaults
  | .outPollTimeout => some .transportFaults
  | .runt => some .invalidChanLen
  | .badHeader => some .invalidHeader
  | .cmdShort => some .invalidChanLen
  | .badChannel => some .invalidChanLen
  | .badCount => some .invalidChanLen
  | .dataShort => some .invalidChanLen
  | .badCommand => some .invalidHeader
  | .startFail => none
  | .underrun => none

/-- The numeric code of a DIAG (R402). -/
def ErrorCode.number : ErrorCode → Nat
  | .rxNotReady => 0x01
  | .rxPollTimeout => 0x02
  | .rxError => 0x03
  | .outPollTimeout => 0x04
  | .runt => 0x10
  | .badHeader => 0x11
  | .cmdShort => 0x12
  | .badChannel => 0x13
  | .badCount => 0x14
  | .dataShort => 0x15
  | .badCommand => 0x16
  | .startFail => 0x20
  | .underrun => 0x30

/-- `inc` of one ErrorStats counter, modulo 2^32 (R16). -/
def ErrorStats.inc (e : ErrorStats) : Counter → ErrorStats
  | .transportFaults => { e with transportFaults := e.transportFaults + 1 }
  | .invalidHeader => { e with invalidHeader := e.invalidHeader + 1 }
  | .invalidChanLen => { e with invalidChanLen := e.invalidChanLen + 1 }

/-- The counters after an error of this code (R401, R402). -/
def ErrorStats.count (e : ErrorStats) (code : ErrorCode) : ErrorStats :=
  match code.counter with
  | some c => e.inc c
  | none => e

/-- record(code, info) (R401): the counter, then the diagnostic. -/
def record (code : ErrorCode) (info : Option Nat) (s : State) : State :=
  emit (.diag code info) { s with stats := s.stats.count code }

/-- The error of a rejected capture (R402). -/
def rejectCode : Reject → ErrorCode
  | .runt _ => .runt
  | .badHeader _ => .badHeader
  | .cmdShort _ => .cmdShort
  | .badChannel _ => .badChannel
  | .badCount _ => .badCount
  | .dataShort _ => .dataShort
  | .badCommand _ => .badCommand

/-- The `info` of a rejected capture (R402). -/
def rejectInfo : Reject → Nat
  | .runt n => n
  | .badHeader b => b.toNat
  | .cmdShort n => n
  | .badChannel b => b.toNat
  | .badCount n => n
  | .dataShort n => n
  | .badCommand b => b.toNat

/-- `raise` of the ProtocolError of a rejected capture (R17, R401): nothing else of the frame happens. -/
def raiseReject (r : Reject) (s : State) : State := record (rejectCode r) (some (rejectInfo r)) s

/-- A bounded poll of the receive engine whose outcome is drawn (R191, R195, R196, R421): TIMEOUT is one
TransportFault. -/
def rxPoll (s : State) : State :=
  match s.answer with
  | .quiet => s.drawn
  | .adverse => record .rxPollTimeout none s.drawn

/-! ## AudioChannel primitives -/

/-- One turn of fill's loop with room left (R153): store a code of `ob` bits in the fill buffer. -/
def Channel.store (ob : Nat) (c : Channel) (x : Half) : Channel :=
  let b := c.act.other
  { c.setBuf b ((c.buf b).write ob c.fillIndex (sampleCode ob c.volume x)) with fillIndex := c.fillIndex + 1 }

/-- fill's loop (R153): how many samples were stored, and the channel after. -/
def Channel.fillLoop (ob : Nat) : List Half → Channel → Nat × Channel
  | [], c => (0, c)
  | x :: xs, c =>
    if Config.cap ≤ c.fillIndex then (0, c)
    else
      let r := Channel.fillLoop ob xs (c.store ob x)
      (r.1 + 1, r.2)

/-- fill (R153): the loop, then `add(total_samples, filled)`. -/
def Channel.fill (ob : Nat) (c : Channel) (xs : List Half) : Nat × Channel :=
  let r := Channel.fillLoop ob xs c
  (r.1, { r.2 with totalSamples := r.2.totalSamples + BitVec.ofNat 32 r.1 })

/-- swap (R154): whether it happened, and the channel after. -/
def Channel.swap (c : Channel) : Bool × Channel :=
  if c.fillIndex ≠ Config.cap then (false, c)
  else (true, { c with act := c.act.other, fillIndex := 0, swaps := c.swaps + 1 })

/-- The channel reset primitive (R156). -/
def Channel.clear (c : Channel) : Channel :=
  { c with
    isPlaying := false
    fillIndex := 0
    underrun := false
    buf0 := Slots.midScale
    buf1 := Slots.midScale }

/-- init (R150). -/
def Channel.init : Channel := Channel.reset

/-- The counters of a channel cleared (R361). -/
def Channel.clearCounters (c : Channel) : Channel := { c with totalSamples := 0, swaps := 0, underruns := 0 }

/-! ## What the collaborators do with an action (10_state.md R64; 44_output_driver.md R308; entry 22) -/

/-- Replace the engine of channel `ch`. -/
def setEngine (ch : Chan) (e : Engine) (s : State) : State := { s with ext := s.ext.setEngine ch e }

/-- An engine that OUT_START started: it drains from slot 0. -/
def Engine.started : Engine := { drain := .draining, position := 0 }

/-- An engine that OUT_START did not start: it no longer drains, but where an earlier disable has not completed. -/
def Engine.failed (e : Engine) : Engine := { e with drain := if e.drain = .draining then .stopped else e.drain }

/-- An engine after a forced disable with this outcome (R302). -/
def Engine.disabled (e : Engine) : Answer → Engine
  | .quiet => { e with drain := .stopped }
  | .adverse => { e with drain := .undisabled }

/-! ## OutputDriver primitives -/

/-- Write `C[ch].out_state`. -/
def setOutState (ch : Chan) (o : OutState) (s : State) : State := s.setChan ch { s.chan ch with outState := o }

/-- out_start (R301). -/
def outStart (ch : Chan) (s : State) : State :=
  let e := emit (.outStart ch (s.chan ch).act Config.cap) s
  match e.answer with
  | .quiet => setOutState ch .running (setEngine ch .started e.drawn)
  | .adverse =>
    setOutState ch .fallback (setEngine ch (e.ext.engine ch).failed
      (emit (.outFallback ch) (record .startFail (some ch.toNat) e.drawn)))

/-- out_disable (R302). -/
def outDisable (ch : Chan) (s : State) : State :=
  let e := emit (.outDisable ch) s
  let d := setEngine ch ((e.ext.engine ch).disabled e.answer) e.drawn
  match e.answer with
  | .quiet => setOutState ch .off d
  | .adverse => setOutState ch .off (record .outPollTimeout (some ch.toNat) d)

/-- clock_ensure (R303). When a started clock ticks first is the environment's. -/
def clockEnsure (s : State) : State :=
  if s.clkRunning then s
  else { emit .clkStart s with clkRunning := true, ext := { s.ext with clockPhase := none } }

/-- clock_release (R303). -/
def clockRelease (s : State) : State :=
  if !s.c0.isPlaying && (!s.c1.isPlaying && s.clkRunning) then { emit .clkStop s with clkRunning := false } else s

/-- Write `C[ch].is_playing`. -/
def setPlaying (ch : Chan) (b : Bool) (s : State) : State := s.setChan ch { s.chan ch with isPlaying := b }

/-- Write `C[ch].underrun`. -/
def setUnderrun (ch : Chan) (b : Bool) (s : State) : State := s.setChan ch { s.chan ch with underrun := b }

/-- swap of channel `ch` (R154). -/
def swapChan (ch : Chan) (s : State) : State := s.setChan ch (s.chan ch).swap.2

/-- stop_channel (R310). -/
def stopChannel (ch : Chan) (s : State) : State := clockRelease (setPlaying ch false (outDisable ch s))

/-- stop_channel where the channel plays, and nothing otherwise (the first lines of R263 and R265). -/
def stopIfPlaying (ch : Chan) (s : State) : State := if (s.chan ch).isPlaying then stopChannel ch s else s

/-! ## Frame counters -/

/-- `inc(command_frames)` (R261). -/
def countCommand (s : State) : State :=
  { s with stats := { s.stats with commandFrames := s.stats.commandFrames + 1 } }

/-- `inc(data_frames)` (R267). -/
def countData (s : State) : State :=
  { s with stats := { s.stats with dataFrames := s.stats.dataFrames + 1 } }

/-! ## Receiver primitives -/

/-- The arming attempt of SEL_ASSERT (R191): whether it succeeded, and the state after its draws. -/
def armEngine (s : State) : Bool × State :=
  match s.answer with
  | .quiet => (true, s.drawn)
  | .adverse =>
    let e := emit .rxForceReset (record .rxNotReady none s.drawn)
    (decide (e.answer = .quiet), rxPoll e)

/-- The terminate of SEL_DEASSERT, for an armed capture (R196). -/
def terminate (s : State) : State := if s.rx.armed then rxPoll (emit .rxTerminate s) else s

/-- What SEL_DEASSERT does to a capture before any parsing (R196): terminate, disarm, go IDLE, and set
`last_captured` to the count read at the start. -/
def closeCapture (s : State) : State :=
  let e := terminate s
  { e with
    rx := { e.rx with armed := false, state := .idle }
    stats := { e.stats with lastCaptured := BitVec.ofNat 32 s.rx.count } }

/-! ## Output read port -/

/-- What output `ch` reads or drives at position `k` between events (20_memory.md R83, 44_output_driver.md
R308, R309; entry 18): the active buffer's slot while RUNNING, MID in FALLBACK, nothing when OFF. -/
def outputRead (s : State) (ch : Chan) (k : Nat) : Option Code :=
  match (s.chan ch).outState with
  | .off => none
  | .running => if k < Config.cap then some (((s.chan ch).buf (s.chan ch).act).read s.params.outBits k) else none
  | .fallback => some (Config.midOf s.params.outBits)

/-- What output `ch` plays at the next tick: the port read at its engine's drain position (R83, R64). -/
def outputNow (s : State) (ch : Chan) : Option Code := outputRead s ch (s.ext.engine ch).position

end Sys2Proof.Machine
end

