-- ==== Sys2Proof/Machine/Fetch.lean ====
section
/-! DEFINITION. How the block takes a pending event (spec 60_exceptions.md R411, R412), and how the frame of an
opcode-table word is placed so that the next step runs it (entry 13). -/

namespace Sys2Proof.Machine

/-- The positions of the pending events that may be taken next (R412): any event but one of the wire that an
earlier event of the wire precedes (entry 2). -/
def eligible : Bool → Nat → List Instr → List Nat
  | _, _, [] => []
  | seen, k, i :: is =>
    if i.isWire then
      if seen then eligible true (k + 1) is else k :: eligible true (k + 1) is
    else k :: eligible seen (k + 1) is

/-- The environment's next choice (R412), or a free value (entry 2). -/
def Env.choice (e : Env) : Nat :=
  match e.choices with
  | c :: _ => c
  | [] => Config.freeChoice e.choiceCount

/-- The environment after one choice. -/
def Env.afterChoice (e : Env) : Env :=
  match e.choices with
  | _ :: cs => { e with choices := cs }
  | [] => { e with choiceCount := e.choiceCount + 1 }

/-- The position of the pending event taken next, and the environment after choosing it. Nothing is chosen
where at most one event may be taken. -/
def Env.pick (e : Env) : Option (Nat × Env) :=
  match eligible false 0 e.pending with
  | [] => none
  | [k] => some (k, e)
  | k :: k' :: ks => some ((k :: k' :: ks).getD (e.choice % (ks.length + 2)) k, e.afterChoice)

/-- The event taken next and the state without it (R411: taken once, cleared by taking it); none where no
event is pending. -/
def takeEvent (s : State) : Option (Instr × State) :=
  match s.env.pick with
  | none => none
  | some (k, e) =>
    match e.pending[k]? with
    | none => none
    | some i => some (i, { s with env := { e with pending := e.pending.eraseIdx k } })

/-- An event is raised: it waits behind those already pending (R411). -/
def raiseEvent (i : Instr) (s : State) : State :=
  { s with env := { s.env with pending := s.env.pending ++ [i] } }

/-- Bytes written to consecutive addresses of the landing buffer. -/
def landBytes : Nat → List Byte → Memory → Memory
  | _, [], m => m
  | a, b :: bs, m => landBytes (a + 1) bs (m.write a b)

/-- An armed capture holding exactly these bytes, whose SEL_DEASSERT is the one pending event, and no tick of the
clock is due: the next step runs the frame (R196). -/
def holdFrame (bs : List Byte) (s : State) : State :=
  { s with
    rx := { state := .capturing, armed := true, count := bs.length, land := landBytes 0 bs s.rx.land }
    env := { s.env with pending := [.selDeassert] }
    ext := if s.clkRunning then { s.ext with clockPhase := some 1 } else s.ext }

end Sys2Proof.Machine
end

