-- ==== Sys2Proof/Machine/Clock.lean ====
section
/-! DEFINITION. How the sample clock and the output engines go on between events (spec 10_state.md R64,
44_output_driver.md R308, 60_exceptions.md R418; entry 22): the environment's side, which meets the block only by
the drain events it raises. -/

namespace Sys2Proof.Machine

/-- The environment says how many steps come before the next tick of a running clock, where it has not yet. -/
def phaseClock (s : State) : State :=
  match s.clkRunning, s.ext.clockPhase with
  | true, none => { s with ext := { s.ext with clockPhase := some s.env.choice }, env := s.env.afterChoice }
  | _, _ => s

/-- A tick of a running clock is due. -/
def tickDue (s : State) : Bool := s.clkRunning && decide (s.ext.clockPhase = some 0)

/-- One step passes without a tick of a running clock. -/
def passTime (s : State) : State :=
  if s.clkRunning then { s with ext := { s.ext with clockPhase := s.ext.clockPhase.map (· - 1) } } else s

/-- The events that an engine raises when it has read slot `k` (R308). -/
def drainEvents (ch : Chan) (k : Nat) : List Instr :=
  if k = Config.cap / 2 - 1 then [.drainHalf ch.toNat]
  else if Config.cap ≤ k + 1 then [.drainComplete ch.toNat]
  else []

/-- An engine reads the slot at its drain position: the position goes on by one, and back to 0 after slot CAP - 1
(R308). -/
def drainSlot (ch : Chan) (s : State) : State :=
  let e := s.ext.engine ch
  { s with
    ext := s.ext.setEngine ch { e with position := if e.position + 1 < Config.cap then e.position + 1 else 0 }
    env := { s.env with pending := s.env.pending ++ drainEvents ch e.position } }

/-- What one engine does at a tick. Where a forced disable has not completed, the environment chooses whether it
completes now or the engine drains one more slot (R302, R308). -/
def tickEngine (ch : Chan) (s : State) : State :=
  match (s.ext.engine ch).drain with
  | .stopped => s
  | .draining => drainSlot ch s
  | .undisabled =>
    let t := { s with env := s.env.afterChoice }
    if s.env.choice % 2 = 0 then setEngine ch { s.ext.engine ch with drain := .stopped } t else drainSlot ch t

/-- One tick of the sample clock (R418): both engines, and then the environment says when the next one comes. -/
def tick (s : State) : State :=
  tickEngine .ch1 (tickEngine .ch0 { s with ext := { s.ext with clockPhase := none } })

end Sys2Proof.Machine
end

