-- ==== Sys2Proof/Machine/Output.lean ====
section
/-! DEFINITION. The output engines' events (spec 44_output_driver.md R304 to R307). -/

namespace Sys2Proof.Machine

/-- DRAIN_HALF (R304): informational only. -/
def execDrainHalf (ch : Nat) (s : State) : Host.Outcome State Fault Refusal :=
  match chanOfNat ch with
  | some _ => .next s.endEvent
  | none => .refused .operandOutOfRange

/-- The swap path of DRAIN_COMPLETE (R306). -/
def drainSwap (ch : Chan) (s : State) : State := outStart ch (setUnderrun ch false (swapChan ch s))

/-- The underrun path of DRAIN_COMPLETE (R307). -/
def drainUnderrun (ch : Chan) (s : State) : State :=
  record .underrun (some ch.toNat)
    (s.setChan ch { s.chan ch with underrun := true, underruns := (s.chan ch).underruns + 1 })

/-- DRAIN_COMPLETE (R305 gate, R306, R307, R131 operand). -/
def execDrainComplete (n : Nat) (s : State) : Host.Outcome State Fault Refusal :=
  match chanOfNat n with
  | none => .refused .operandOutOfRange
  | some ch =>
    if (s.chan ch).isPlaying = true ∧ (s.chan ch).outState = .running then
      if (s.chan ch).fillIndex = Config.cap then .next (drainSwap ch s).endEvent
      else .next (drainUnderrun ch s).endEvent
    else .next s.endEvent

end Sys2Proof.Machine
end

