-- ==== Sys2Proof/Machine/Commands.lean ====
section
/-! DEFINITION. The frame operations: PLAY, STOP, VOLUME, RESET and DATA as the Dispatcher applies them (spec
43_dispatcher.md R262 to R267), each with the end-of-event update of the ready line (45_flow_controller.md
R341; entries 8 and 9). -/

namespace Sys2Proof.Machine

/-- PLAY's teardown of a running session (R262): out_disable only, the clock left running. -/
def playTeardown (ch : Chan) (s : State) : State := if (s.chan ch).isPlaying then outDisable ch s else s

/-- PLAY (R262). -/
def execPlay (ch : Chan) (_param : Half) (s : State) : Host.Outcome State Fault Refusal :=
  let torn := playTeardown ch (countCommand s)
  let marked := setUnderrun ch false (setPlaying ch true (swapChan ch torn))
  .next (outStart ch (clockEnsure marked)).endEvent

/-- STOP (R263). -/
def execStop (ch : Chan) (_param : Half) (s : State) : Host.Outcome State Fault Refusal :=
  .next (stopIfPlaying ch (countCommand s)).endEvent

/-- VOLUME (R264). -/
def execVolume (ch : Chan) (param : Half) (s : State) : Host.Outcome State Fault Refusal :=
  let e := countCommand s
  .next (e.setChan ch { e.chan ch with volume := min param.toNat Config.volMax }).endEvent

/-- RESET (R265, R156). -/
def execReset (ch : Chan) (_param : Half) (s : State) : Host.Outcome State Fault Refusal :=
  let e := stopIfPlaying ch (countCommand s)
  .next (e.setChan ch (e.chan ch).clear).endEvent

/-- DATA (R267). A term whose number of samples is outside 1..CAP is no frame the decoder gives; it has the
effect that R233 gives such a count (entry 10). -/
def execData (ch : Chan) (xs : List Half) (s : State) : Host.Outcome State Fault Refusal :=
  if xs.length = 0 ∨ xs.length > Config.cap then .next (raiseReject (.badCount xs.length) s).endEvent
  else
    let e := countData s
    .next (e.setChan ch ((e.chan ch).fill e.params.outBits xs).2).endEvent

/-- The Dispatcher on a frame the parser accepted: the meaning of its operation. The events are no frames and
never come out of `decode`; they leave the state as it is. -/
def dispatchFrame (i : Instr) (s : State) : Host.Outcome State Fault Refusal :=
  match i with
  | .play ch p => execPlay ch p s
  | .stop ch p => execStop ch p s
  | .volume ch p => execVolume ch p s
  | .reset ch p => execReset ch p s
  | .data ch xs => execData ch xs s
  | .selAssert => .next s.endEvent
  | .selDeassert => .next s.endEvent
  | .rxByte _ => .next s.endEvent
  | .rxError => .next s.endEvent
  | .drainHalf _ => .next s.endEvent
  | .drainComplete _ => .next s.endEvent
  | .statusRead _ _ => .next s.endEvent
  | .ctrlWrite _ _ _ => .next s.endEvent
  | .sysReset => .next s.endEvent

end Sys2Proof.Machine
end

