-- ==== Sys2Proof/Machine/Receiver.lean ====
section
/-! DEFINITION. The receiver's events (spec 41_frame_receiver.md R190 to R198). -/

namespace Sys2Proof.Machine

/-- SEL_ASSERT (R191 in IDLE, R192 in CAPTURING). -/
def execSelAssert (s : State) : Host.Outcome State Fault Refusal :=
  match s.rx.state with
  | .capturing => .next s.endEvent
  | .idle =>
    let r := armEngine s
    let e := if r.1 then emit (.rxArm Config.landSize) r.2 else r.2
    .next { e with rx := { e.rx with count := 0, armed := r.1, state := .capturing } }.endEvent

/-- SEL_DEASSERT (R196 in CAPTURING, with the parser R230 to R236, the runt check R198 and the Dispatcher
inside it; R197 in IDLE). -/
def execSelDeassert (s : State) : Host.Outcome State Fault Refusal :=
  match s.rx.state with
  | .idle => .next s.endEvent
  | .capturing =>
    if s.rx.armed then
      match decode s.captured with
      | .ok i => dispatchFrame i (closeCapture s)
      | .error r => .next (raiseReject r (closeCapture s)).endEvent
    else .next (closeCapture s).endEvent

/-- RX_BYTE (R193 stored, R194 dropped, R131 operand). -/
def execRxByte (b : Nat) (s : State) : Host.Outcome State Fault Refusal :=
  if b < 256 then
    if s.rx.state = .capturing ∧ s.rx.armed = true ∧ s.rx.count < Config.landSize then
      .next { s with rx := { s.rx with
        land := s.rx.land.write s.rx.count (BitVec.ofNat 8 b)
        count := s.rx.count + 1 } }.endEvent
    else .next s.endEvent
  else .refused .operandOutOfRange

/-- RX_ERROR (R195). -/
def execRxError (s : State) : Host.Outcome State Fault Refusal :=
  let e := rxPoll (emit .rxForceReset (record .rxError none s))
  .next { e with rx := { e.rx with armed := false } }.endEvent

end Sys2Proof.Machine
end

