-- ==== Sys2Proof/Machine/Window.lean ====
section
/-! DEFINITION. The status window's events (spec 46_status_control.md R360 to R363, 10_state.md R58 to R62)
and the platform reset (70_reset_and_hazards.md R450). -/

namespace Sys2Proof.Machine

/-- STATUS_READ (R360; U19, U20, U22). -/
def execStatusRead (off : Nat) (size : AccessSize) (s : State) : Host.Outcome State Fault Refusal :=
  if off ≤ 0x7C then
    if off % 4 = 0 ∧ size = .word then
      if outStateReservedIn (windowReg off) (windowWord s (windowReg off)) then .fault .outStateReserved
      else .next { s with readData := some (windowWord s (windowReg off)) }.endEvent
    else .refused .notAnAlignedWord
  else .refused .operandOutOfRange

/-- The counter reset (R361). -/
def clearCounters (s : State) : State :=
  { s with
    c0 := s.c0.clearCounters
    c1 := s.c1.clearCounters
    stats := ErrorStats.reset }

/-- CTRL_WRITE (R361 to R363, R62, R131). -/
def execCtrlWrite (off : Nat) (size : AccessSize) (v : Nat) (s : State) : Host.Outcome State Fault Refusal :=
  if off ≤ 0x7C ∧ v < 2 ^ 32 then
    if off % 4 = 0 ∧ size = .word then
      if windowReg off = .ctrl ∧ v.testBit 0 = true then .next (clearCounters s).endEvent
      else .next s.endEvent
    else .refused .notAnAlignedWord
  else .refused .operandOutOfRange

/-- SYS_RESET (R450, R63): pending events are discarded, no action is emitted. The landing buffer, whose
contents after reset are unspecified, keeps its bytes (entry 7), the parameters stay, and the collaborators are
quiet, as R451 says of them. -/
def execSysReset (s : State) : Host.Outcome State Fault Refusal :=
  .next { s with
    rx := { state := .idle, armed := false, count := 0, land := s.rx.land }
    c0 := Channel.init
    c1 := Channel.init
    clkRunning := false
    stats := ErrorStats.reset
    env := { s.env with pending := [] }
    ext := Collaborators.quiet }.endEvent

end Sys2Proof.Machine
end

