-- ==== Sys2Proof/Machine/Dispatch.lean ====
section
/-! DEFINITION. The meaning of each operation: one arm per constructor of Instr. -/

namespace Sys2Proof.Machine

def exec (i : Instr) (s : State) : Host.Outcome State Fault Refusal :=
  match i with
  | .play ch p => Sys2Proof.Machine.execPlay ch p s
  | .stop ch p => Sys2Proof.Machine.execStop ch p s
  | .volume ch p => Sys2Proof.Machine.execVolume ch p s
  | .reset ch p => Sys2Proof.Machine.execReset ch p s
  | .data ch xs => Sys2Proof.Machine.execData ch xs s
  | .selAssert => Sys2Proof.Machine.execSelAssert s
  | .selDeassert => Sys2Proof.Machine.execSelDeassert s
  | .rxByte b => Sys2Proof.Machine.execRxByte b s
  | .rxError => Sys2Proof.Machine.execRxError s
  | .drainHalf ch => Sys2Proof.Machine.execDrainHalf ch s
  | .drainComplete ch => Sys2Proof.Machine.execDrainComplete ch s
  | .statusRead off size => Sys2Proof.Machine.execStatusRead off size s
  | .ctrlWrite off size v => Sys2Proof.Machine.execCtrlWrite off size v s
  | .sysReset => Sys2Proof.Machine.execSysReset s

end Sys2Proof.Machine
end

