-- ==== Sys2Proof/Machine/Step.lean ====
section
/-! DEFINITION. One step of the machine: it takes one pending event and processes it whole (spec 00_scope.md
R7, 60_exceptions.md R411, R412), or the sample clock ticks between two events. -/

namespace Sys2Proof.Machine

/-- The block's side of a step: it takes one pending event. With none pending the block is idle (R452; entry 1); a
frame operation raised as an event is refused (R130; entry 9). -/
def takeAndRun (s : State) : Host.Outcome State Fault Refusal :=
  match takeEvent s with
  | none => .next s
  | some (i, t) => if i.isEvent then exec i t else .refused .notAnEvent

/-- One step: a tick of the sample clock where one is due, and else the block's (entry 22). -/
def step (s : State) : Host.Outcome State Fault Refusal :=
  if tickDue (phaseClock s) then .next (tick (phaseClock s)) else takeAndRun (passTime (phaseClock s))

/-- The frame of an opcode-table word placed so that the next step runs it (entry 13). -/
def State.withFetchWord (s : State) (nbits w : Nat) : State := holdFrame (tableFrame nbits w) s

end Sys2Proof.Machine
end

