-- ==== Sys2Proof/Safety.lean ====
section
/-! DEFINITION. What a good state is (spec 10_state.md R57, all eight items, with the canonical form of the
memories), and the whole-machine notions that claims use. -/

namespace Sys2Proof.Machine

/-- Items 1, 2, 7 and 8 of R57 for one channel, and the form of its buffers. The buffers' form holds item
7 (every slot holds a code in 0..MAX_CODE of `ob` bits) and says that no slot outside 0..CAP-1 exists. -/
structure Channel.Good (ob : Nat) (c : Channel) : Prop where
  fillIndex_le : c.fillIndex ≤ Config.cap
  playing_iff : c.isPlaying = false ↔ c.outState = .off
  volume_le : c.volume ≤ Config.volMax
  buf0_wf : c.buf0.wf ob = true
  buf1_wf : c.buf1.wf ob = true

/-- An output engine agrees with the block's record of it (R46, R64): it drains as commanded exactly where that is
RUNNING, and its drain position is a slot. -/
structure EngineGood (o : OutState) (e : Engine) : Prop where
  running_iff : o = .running ↔ e.drain = .draining
  position_lt : e.position < Config.cap

/-- R57 for the whole block, the range of OUT_BITS (R8), and the engines. -/
structure State.Good (s : State) : Prop where
  outBits_pos : 1 ≤ s.params.outBits
  outBits_le : s.params.outBits ≤ 16
  c0 : s.c0.Good s.params.outBits
  c1 : s.c1.Good s.params.outBits
  clk : s.clkRunning = (s.c0.isPlaying || s.c1.isPlaying)
  idle : s.rx.state = .idle → s.rx.armed = false
  count_le : s.rx.count ≤ Config.landSize
  ready : s.readyOut = flow s
  land_wf : s.rx.land.wf = true
  engine0 : EngineGood s.c0.outState s.ext.engine0
  engine1 : EngineGood s.c1.outState s.ext.engine1

/-- No tick of the sample clock is due at the next step: the clock is stopped, or the environment has said that
steps come before its next tick (entry 22). -/
def State.betweenTicks (s : State) : Prop := s.clkRunning = true → ∃ n, s.ext.clockPhase = some (n + 1)

/-- `i` at `s` applies the frame operation `j`: it is `j`, or the SEL_DEASSERT that closes an armed capture
of `j` (41_frame_receiver.md R196). -/
def runsFrame (i : Instr) (s : State) (j : Instr) : Prop :=
  i = j ∨ (i = .selDeassert ∧ s.rx.state = .capturing ∧ s.rx.armed = true ∧ decode s.captured = .ok j)

/-- `i` is an engine's drain-complete event of channel `ch` that passes the gate of 44_output_driver.md R305. -/
def drains (i : Instr) (s : State) (ch : Chan) : Prop :=
  i = .drainComplete ch.toNat ∧ (s.chan ch).isPlaying = true ∧ (s.chan ch).outState = .running

end Sys2Proof.Machine
end

