-- ==== Sys2Proof/Certificates/Slice0/Obligations.lean ====
section
/-! DEFINITION. The statements for the provers. An outcome is always the whole next state, so each equation says
what the operation leaves unchanged as well. `s.answer` is the value of the step's first draw, `s.drawn.answer`
that of its second (spec 60_exceptions.md R421); both values of every draw are covered. -/

open Sys2Proof Sys2Proof.Machine

/-! ## Encoding -/

/-- Decoding a frame's bytes, with any bytes after them, gives the frame back (30_encoding.md R111, R112, R119,
R127): no operand bit is dropped. -/
def Obligations.DecodeOfEncodeWithTrailingBytes : Prop :=
  ∀ (i : Instr) (bs extra : List Byte), i.wf = true → encode i = some bs → decode (bs ++ extra) = .ok i

/-- A span that decodes is the encoding of a well-formed frame followed by bytes that are ignored (R119, R124,
R230). -/
def Obligations.DecodedSpanBeginsWithItsEncoding : Prop :=
  ∀ (bs : List Byte) (i : Instr), decode bs = .ok i →
    i.wf = true ∧ i.isEvent = false ∧ ∃ e extra, encode i = some e ∧ bs = e ++ extra

/-- The five rows of R121, match and mask over the words W and H. -/
def Obligations.DecodeAgreesWithOpcodeRows : Prop :=
  ∀ bs : List Byte,
    ((∃ ch p, decode bs = .ok (.play ch p)) ↔ matchesCommandRow 0xC000010000 bs = true) ∧
    ((∃ ch p, decode bs = .ok (.stop ch p)) ↔ matchesCommandRow 0xC000020000 bs = true) ∧
    ((∃ ch p, decode bs = .ok (.volume ch p)) ↔ matchesCommandRow 0xC000030000 bs = true) ∧
    ((∃ ch p, decode bs = .ok (.reset ch p)) ↔ matchesCommandRow 0xC000FF0000 bs = true) ∧
    ((∃ ch xs, decode bs = .ok (.data ch xs)) ↔ matchesDataRow bs = true)

/-- Byte order on the wire (20_memory.md R86): `param` and N big-endian, sample k little-endian at bytes 4+2k
and 5+2k. -/
def Obligations.WireFieldsHaveTheirByteOrder : Prop :=
  ∀ bs : List Byte,
    (∀ ch p, (decode bs = .ok (.play ch p) ∨ decode bs = .ok (.stop ch p) ∨ decode bs = .ok (.volume ch p) ∨
        decode bs = .ok (.reset ch p)) →
      p.toNat = 256 * (byteAt bs 3).toNat + (byteAt bs 4).toNat) ∧
    (∀ ch xs, decode bs = .ok (.data ch xs) →
      xs.length = 256 * (byteAt bs 2).toNat + (byteAt bs 3).toNat ∧
      ∀ k, k < xs.length →
        (xs.getD k 0).toNat = (byteAt bs (4 + 2 * k)).toNat + 256 * (byteAt bs (5 + 2 * k)).toNat)

/-- Every invalid class of R122, in the check order of 42_parser.md R237. -/
def Obligations.InvalidSpansAreRejectedInCheckOrder : Prop :=
  ∀ bs : List Byte,
    let n := bs.length
    let count := 256 * (byteAt bs 2).toNat + (byteAt bs 3).toNat
    (n < 4 → decode bs = .error (.runt n)) ∧
    (4 ≤ n → byteAt bs 0 ≠ 0xC0 → byteAt bs 0 ≠ 0xDA → decode bs = .error (.badHeader (byteAt bs 0))) ∧
    (n = 4 → byteAt bs 0 = 0xC0 → decode bs = .error (.cmdShort 4)) ∧
    (5 ≤ n → byteAt bs 0 = 0xC0 → 1 < (byteAt bs 1).toNat → decode bs = .error (.badChannel (byteAt bs 1))) ∧
    (5 ≤ n → byteAt bs 0 = 0xC0 → (byteAt bs 1).toNat ≤ 1 →
      byteAt bs 2 ≠ 0x01 → byteAt bs 2 ≠ 0x02 → byteAt bs 2 ≠ 0x03 → byteAt bs 2 ≠ 0xFF →
      decode bs = .error (.badCommand (byteAt bs 2))) ∧
    (4 ≤ n → byteAt bs 0 = 0xDA → (count = 0 ∨ 2048 < count) → decode bs = .error (.badCount count)) ∧
    (4 ≤ n → byteAt bs 0 = 0xDA → 1 ≤ count → count ≤ 2048 → n < 4 + 2 * count →
      decode bs = .error (.dataShort n)) ∧
    (byteAt bs 0 = 0xDA → 1 ≤ count → count ≤ 2048 → 4 + 2 * count ≤ n → 1 < (byteAt bs 1).toNat →
      decode bs = .error (.badChannel (byteAt bs 1)))

/-- One frame of each kind written out byte by byte from R111 and R112. -/
def Obligations.WrittenOutFramesDecode : Prop :=
  decode [0xC0, 0x00, 0x01, 0x00, 0x00] = .ok (.play .ch0 0) ∧
  decode [0xC0, 0x01, 0x02, 0x00, 0x00] = .ok (.stop .ch1 0) ∧
  decode [0xC0, 0x01, 0x03, 0x01, 0x2C] = .ok (.volume .ch1 300) ∧
  decode [0xC0, 0x00, 0xFF, 0x00, 0x00] = .ok (.reset .ch0 0) ∧
  decode [0xDA, 0x01, 0x00, 0x03, 0xFF, 0x7F, 0x00, 0x80, 0xFF, 0xFF] = .ok (.data .ch1 [0x7FFF, 0x8000, 0xFFFF])

/-! ## Steps and events -/

/-- A step at which an armed capture is closed runs the frame in the landing buffer: it is exec of the decoded
operation at the state with the event taken, a running clock one step nearer to its next tick, and the capture
closed (41_frame_receiver.md R196; entry 22). -/
def Obligations.StepRunsTheCapturedFrame : Prop :=
  ∀ (s : State) (i : Instr), s.betweenTicks → s.env.pending = [.selDeassert] → s.rx.state = .capturing →
    s.rx.armed = true → decode s.captured = .ok i →
    step s = exec i (closeCapture { s with
      env := { s.env with pending := [] }
      ext := (passTime s).ext })

/-- A step takes one pending event, removes it and nothing else, runs it, and never lets an event of the wire
overtake an earlier one (60_exceptions.md R411, R412; entries 1, 2, 9 and 22). -/
def Obligations.StepTakesOnePendingEvent : Prop :=
  ∀ (s : State) (i : Instr) (t : State), s.betweenTicks → takeEvent (passTime s) = some (i, t) →
    (i.isEvent = true → step s = exec i t) ∧
    (i.isEvent = false → step s = .refused .notAnEvent) ∧
    ∃ k, s.env.pending[k]? = some i ∧ t.env.pending = s.env.pending.eraseIdx k ∧
      t = { s with env := t.env, ext := (passTime s).ext } ∧ t.env.answers = s.env.answers ∧ t.env.answerCount = s.env.answerCount ∧
      (i.isWire = true → ∀ j e, j < k → s.env.pending[j]? = some e → e.isWire = false)

/-- Every order of the pending events that keeps the wire's order is admitted: each such event is the one taken
next for some choice of the environment (R412). -/
def Obligations.EveryPendingOrderIsAdmitted : Prop :=
  ∀ (s : State) (k : Nat) (i : Instr), s.env.pending[k]? = some i →
    (i.isWire = true → ∀ j e, j < k → s.env.pending[j]? = some e → e.isWire = false) →
    ∃ c t, takeEvent { s with env := { s.env with choices := [c] } } = some (i, t) ∧
      t.env.pending = s.env.pending.eraseIdx k

/-- What passes without an event (10_state.md R64, 44_output_driver.md R308, 70_reset_and_hazards.md R452;
entries 1 and 22): an idle block with a stopped clock stays as it is; a running clock comes nearer to its next
tick; and at a tick every draining engine goes on by one slot, raising its half and complete events after slots
1023 and 2047, while an engine whose disable did not complete either does so or is disabled now. -/
def Obligations.TimePassesBetweenEvents : Prop :=
  ∀ s : State,
    (s.env.pending = [] → s.clkRunning = false → step s = .next s) ∧
    (s.env.pending = [] → s.clkRunning = true → ∀ n, s.ext.clockPhase = some (n + 1) →
      step s = .next { s with ext := { s.ext with clockPhase := some n } }) ∧
    (s.clkRunning = true → s.ext.clockPhase = none →
      step s = step { s with ext := { s.ext with clockPhase := some s.env.choice }, env := s.env.afterChoice }) ∧
    (s.clkRunning = true → s.ext.clockPhase = some 0 →
      ∃ (t : State) (drains : Chan → Bool), step s = .next t ∧
        t = { s with env := t.env, ext := t.ext } ∧ t.ext.clockPhase = none ∧
        t.env.answers = s.env.answers ∧ t.env.answerCount = s.env.answerCount ∧
        (∀ ch, (s.ext.engine ch).drain = .stopped → drains ch = false) ∧
        (∀ ch, (s.ext.engine ch).drain = .draining → drains ch = true) ∧
        (∀ ch, let e := s.ext.engine ch
          t.ext.engine ch =
            if drains ch = true then { e with position := if e.position + 1 < 2048 then e.position + 1 else 0 }
            else { e with drain := .stopped }) ∧
        let raised (ch : Chan) : List Instr :=
          if drains ch = true ∧ (s.ext.engine ch).position = 1023 then [.drainHalf ch.toNat]
          else if drains ch = true ∧ 2047 ≤ (s.ext.engine ch).position then [.drainComplete ch.toNat]
          else []
        t.env.pending = s.env.pending ++ raised .ch0 ++ raised .ch1)

/-- Every draw is free: for every state and answer some environment gives that answer (R421; entry 3), and a
draw touches nothing but the environment. -/
def Obligations.EveryAnswerCanBeDrawn : Prop :=
  ∀ (s : State) (a : Answer), (∃ e, e.pending = s.env.pending ∧ ({ s with env := e } : State).answer = a) ∧
    s.drawn = { s with env := s.drawn.env } ∧ s.drawn.env.pending = s.env.pending ∧
    s.drawn.env.choices = s.env.choices ∧ s.drawn.env.choiceCount = s.env.choiceCount

/-- No error traps or halts the block (60_exceptions.md R400): every operation in its domain ends in a next
state, from every state, and no operation faults. -/
def Obligations.EveryWellFormedOperationCompletes : Prop :=
  ∀ (i : Instr) (s : State), (i.wf = true → ∃ t, exec i s = .next t) ∧ ∀ f, exec i s ≠ .fault f

/-- The line is written at the end of every event (45_flow_controller.md R341, D24). -/
def Obligations.EveryEventEndsWithTheFlowUpdate : Prop :=
  ∀ (i : Instr) (s t : State), exec i s = .next t → t.readyOut = flow t

/-! ## The receiver -/

/-- SEL_ASSERT in IDLE (41_frame_receiver.md R191, D12), for every answer. -/
def Obligations.SelAssertArmsTheReceiver : Prop :=
  ∀ s : State, s.rx.state = .idle →
    (s.answer = .quiet →
      exec .selAssert s = .next (State.endEvent { s with
        rx := { s.rx with state := .capturing, armed := true, count := 0 }
        env := s.drawn.env
        trace := s.trace ++ [.rxArm 4100] })) ∧
    (s.answer = .adverse → s.drawn.answer = .quiet →
      exec .selAssert s = .next (State.endEvent { s with
        rx := { s.rx with state := .capturing, armed := true, count := 0 }
        env := s.drawn.drawn.env
        stats := { s.stats with transportFaults := s.stats.transportFaults + 1 }
        trace := s.trace ++ [.diag .rxNotReady none, .rxForceReset, .rxArm 4100] })) ∧
    (s.answer = .adverse → s.drawn.answer = .adverse →
      exec .selAssert s = .next (State.endEvent { s with
        rx := { s.rx with state := .capturing, armed := false, count := 0 }
        env := s.drawn.drawn.env
        stats := { s.stats with transportFaults := s.stats.transportFaults + 2 }
        trace := s.trace ++ [.diag .rxNotReady none, .rxForceReset, .diag .rxPollTimeout none] }))

/-- A second assertion while capturing, and a deassertion while idle, change nothing but through the
end-of-event update (R192, R197, D11). -/
def Obligations.StraySelectEdgesAreIgnored : Prop :=
  ∀ s : State,
    (s.rx.state = .capturing → exec .selAssert s = .next s.endEvent) ∧
    (s.rx.state = .idle → exec .selDeassert s = .next s.endEvent)

/-- RX_BYTE while capturing, armed and with room (R193): the byte lands at `rx_count`, the count goes up by one,
every other byte and every other field is as before. -/
def Obligations.ReceivedByteLandsAtTheCount : Prop :=
  ∀ (s : State) (b : Nat), b < 256 → s.rx.state = .capturing → s.rx.armed = true → s.rx.count < 4100 →
    s.rx.land.wf = true →
    ∃ t, exec (.rxByte b) s = .next t ∧
      t.rx.land.read s.rx.count = BitVec.ofNat 8 b ∧
      (∀ a, a ≠ s.rx.count → t.rx.land.read a = s.rx.land.read a) ∧
      t.rx.land.wf = true ∧
      t = State.endEvent { s with rx := { s.rx with count := s.rx.count + 1, land := t.rx.land } }

/-- RX_BYTE otherwise is dropped (R194, D27). -/
def Obligations.ByteOutsideACaptureIsDropped : Prop :=
  ∀ (s : State) (b : Nat), b < 256 → (s.rx.state = .idle ∨ s.rx.armed = false ∨ 4100 ≤ s.rx.count) →
    exec (.rxByte b) s = .next s.endEvent

/-- RX_ERROR (R195, D13): counted, the engine force-reset, the frame in progress disarmed; `rx_state` and
`rx_count` unchanged. -/
def Obligations.ReceiveErrorAbandonsTheFrame : Prop :=
  ∀ s : State,
    (s.answer = .quiet → exec .rxError s = .next (State.endEvent { s with
      rx := { s.rx with armed := false }
      env := s.drawn.env
      stats := { s.stats with transportFaults := s.stats.transportFaults + 1 }
      trace := s.trace ++ [.diag .rxError none, .rxForceReset] })) ∧
    (s.answer = .adverse → exec .rxError s = .next (State.endEvent { s with
      rx := { s.rx with armed := false }
      env := s.drawn.env
      stats := { s.stats with transportFaults := s.stats.transportFaults + 2 }
      trace := s.trace ++ [.diag .rxError none, .rxForceReset, .diag .rxPollTimeout none] }))

/-- SEL_DEASSERT of an unarmed capture (R196, D9, D13): closed with `last_captured` set, nothing parsed, no
counter, no action. -/
def Obligations.UnarmedCaptureIsClosedUnparsed : Prop :=
  ∀ s : State, s.rx.state = .capturing → s.rx.armed = false →
    exec .selDeassert s = .next (State.endEvent { s with
      rx := { s.rx with state := .idle }
      stats := { s.stats with lastCaptured := BitVec.ofNat 32 s.rx.count } })

/-- SEL_DEASSERT of an armed capture that is a frame (R196, D14): the transfer is terminated, a timeout counted,
the receiver disarmed and IDLE, `last_captured` set, and then the frame's operation runs. -/
def Obligations.DeassertRunsTheDecodedFrame : Prop :=
  ∀ (s : State) (i : Instr), s.rx.state = .capturing → s.rx.armed = true → decode s.captured = .ok i →
    (s.answer = .quiet → exec .selDeassert s = exec i { s with
      rx := { s.rx with state := .idle, armed := false }
      env := s.drawn.env
      stats := { s.stats with lastCaptured := BitVec.ofNat 32 s.rx.count }
      trace := s.trace ++ [.rxTerminate] }) ∧
    (s.answer = .adverse → exec .selDeassert s = exec i { s with
      rx := { s.rx with state := .idle, armed := false }
      env := s.drawn.env
      stats := { s.stats with
        lastCaptured := BitVec.ofNat 32 s.rx.count
        transportFaults := s.stats.transportFaults + 1 }
      trace := s.trace ++ [.rxTerminate, .diag .rxPollTimeout none] })

/-- SEL_DEASSERT of an armed capture that is no frame (R198, R237, R238, 60_exceptions.md R402): exactly one
counter more, one diagnostic, and neither channel, the clock nor an engine touched. -/
def Obligations.DroppedFrameChangesOneCounter : Prop :=
  ∀ (s : State) (r : Reject), s.rx.state = .capturing → s.rx.armed = true → decode s.captured = .error r →
    let closed : State := { s with
      rx := { s.rx with state := .idle, armed := false }
      env := s.drawn.env
      stats := { s.stats with
        lastCaptured := BitVec.ofNat 32 s.rx.count
        transportFaults :=
          if s.answer = .quiet then s.stats.transportFaults else s.stats.transportFaults + 1 }
      trace := s.trace ++ [.rxTerminate] ++
        (if s.answer = .quiet then [] else [.diag .rxPollTimeout none]) }
    let header (code : ErrorCode) (info : Nat) : State := { closed with
      stats := { closed.stats with invalidHeader := closed.stats.invalidHeader + 1 }
      trace := closed.trace ++ [.diag code (some info)] }
    let chanLen (code : ErrorCode) (info : Nat) : State := { closed with
      stats := { closed.stats with invalidChanLen := closed.stats.invalidChanLen + 1 }
      trace := closed.trace ++ [.diag code (some info)] }
    exec .selDeassert s = .next (State.endEvent (match r with
      | .runt n => chanLen .runt n
      | .badHeader b => header .badHeader b.toNat
      | .cmdShort n => chanLen .cmdShort n
      | .badChannel b => chanLen .badChannel b.toNat
      | .badCount n => chanLen .badCount n
      | .dataShort n => chanLen .dataShort n
      | .badCommand b => header .badCommand b.toNat))

/-- Every armed capture that is closed counts in exactly one of the four frame counters and sets
`last_captured` (60_exceptions.md R407). -/
def Obligations.ArmedCaptureCountsExactlyOnce : Prop :=
  ∀ s : State, s.rx.state = .capturing → s.rx.armed = true →
    ∃ t, exec .selDeassert s = .next t ∧ t.rx.state = .idle ∧ t.rx.armed = false ∧
      t.stats.lastCaptured = BitVec.ofNat 32 s.rx.count ∧
      ((t.stats.invalidHeader = s.stats.invalidHeader + 1 ∧ t.stats.invalidChanLen = s.stats.invalidChanLen ∧
          t.stats.commandFrames = s.stats.commandFrames ∧ t.stats.dataFrames = s.stats.dataFrames) ∨
        (t.stats.invalidHeader = s.stats.invalidHeader ∧ t.stats.invalidChanLen = s.stats.invalidChanLen + 1 ∧
          t.stats.commandFrames = s.stats.commandFrames ∧ t.stats.dataFrames = s.stats.dataFrames) ∨
        (t.stats.invalidHeader = s.stats.invalidHeader ∧ t.stats.invalidChanLen = s.stats.invalidChanLen ∧
          t.stats.commandFrames = s.stats.commandFrames + 1 ∧ t.stats.dataFrames = s.stats.dataFrames) ∨
        (t.stats.invalidHeader = s.stats.invalidHeader ∧ t.stats.invalidChanLen = s.stats.invalidChanLen ∧
          t.stats.commandFrames = s.stats.commandFrames ∧ t.stats.dataFrames = s.stats.dataFrames + 1))

/-- Bytes of the landing buffer at or above `rx_count` are never read (10_state.md R36, 20_memory.md R81,
42_parser.md R230): replacing them changes nothing but themselves. -/
def Obligations.BytesAboveTheCountAreNeverRead : Prop :=
  ∀ (s t : State) (m : Memory), (∀ a, a < s.rx.count → m.read a = s.rx.land.read a) →
    exec .selDeassert s = .next t →
    exec .selDeassert { s with rx := { s.rx with land := m } } = .next { t with rx := { t.rx with land := m } }

/-! ## Samples and buffers -/

/-- Conversion at every output resolution (40_audio_channel.md R151, D3): the floor of the shifted sample around
mid-scale, inside 0..MAX_CODE. -/
def Obligations.ConvertedSampleIsInRange : Prop :=
  ∀ (ob : Nat) (x : Half), 1 ≤ ob → ob ≤ 16 →
    convertAt ob x = x.toInt / 2 ^ (16 - ob) + 2 ^ (ob - 1) ∧
    0 ≤ convertAt ob x ∧ convertAt ob x ≤ 2 ^ ob - 1

/-- The volume laws at every output resolution (R159), and the range law (R160). -/
def Obligations.VolumeLawsHold : Prop :=
  ∀ (ob : Nat) (x : Half) (v w : Nat), 1 ≤ ob → ob ≤ 16 → v ≤ w → w ≤ 100 →
    scaleAt ob (convertAt ob x) 100 = convertAt ob x ∧
    scaleAt ob (convertAt ob x) 0 = 2 ^ (ob - 1) ∧
    |scaleAt ob (convertAt ob x) v - 2 ^ (ob - 1)| ≤ |scaleAt ob (convertAt ob x) w - 2 ^ (ob - 1)| ∧
    0 ≤ scaleAt ob (convertAt ob x) v ∧ scaleAt ob (convertAt ob x) v ≤ 2 ^ ob - 1

/-- The code that fill stores is the integer of R151 and R152, with nothing truncated (00_scope.md R11): the
offset from mid-scale is the shifted sample's, scaled by the volume and rounded toward zero (D4), at every output
resolution, and it is at most MAX_CODE. -/
def Obligations.StoredCodeIsExact : Prop :=
  ∀ (ob v : Nat) (x : Half), 1 ≤ ob → ob ≤ 16 → v ≤ 100 →
    (sampleCode ob v x : Int) = 2 ^ (ob - 1) + Int.tdiv (x.toInt / 2 ^ (16 - ob) * v) 100 ∧
    sampleCode ob v x ≤ 2 ^ ob - 1

/-- DATA (43_dispatcher.md R267) and fill (40_audio_channel.md R153): min(N, CAP - fill_index) samples stored in
frame order from `fill_index` on, every other slot of the fill buffer and the whole active buffer unchanged,
the index and the sample counter up by that many, and nothing else but `data_frames`; at every output
resolution. -/
def Obligations.DataFillsTheFillBuffer : Prop :=
  ∀ (s : State) (ch : Chan) (xs : List Half), 1 ≤ xs.length → xs.length ≤ 2048 →
    ((s.chan ch).buf (s.chan ch).act.other).wf s.params.outBits = true → (s.chan ch).fillIndex ≤ 2048 →
    ∃ t, exec (.data ch xs) s = .next t ∧
      let ob := s.params.outBits
      let c := s.chan ch
      let c' := t.chan ch
      let n := min xs.length (2048 - c.fillIndex)
      (∀ j, j < n → (c'.buf c.act.other).read ob (c.fillIndex + j) = sampleCode ob c.volume (xs.getD j 0)) ∧
      (∀ k, (k < c.fillIndex ∨ c.fillIndex + n ≤ k) →
        (c'.buf c.act.other).read ob k = (c.buf c.act.other).read ob k) ∧
      (c'.buf c.act.other).wf ob = true ∧ c'.buf c.act = c.buf c.act ∧
      c' = { c with
        buf0 := c'.buf0
        buf1 := c'.buf1
        fillIndex := c.fillIndex + n
        totalSamples := c.totalSamples + BitVec.ofNat 32 n } ∧
      t = State.endEvent (State.setChan
        { s with stats := { s.stats with dataFrames := s.stats.dataFrames + 1 } } ch c')

/-- swap (R154): no effect unless the fill buffer is exactly full; otherwise the roles flip, the index goes to
0, the count goes up, and no slot is written. -/
def Obligations.SwapActsOnlyOnAFullBuffer : Prop :=
  ∀ c : Channel,
    (c.fillIndex ≠ 2048 → c.swap = (false, c)) ∧
    (c.fillIndex = 2048 →
      c.swap = (true, { c with act := c.act.other, fillIndex := 0, swaps := c.swaps + 1 })) ∧
    c.act.other ≠ c.act

/-- Buffer roles are exchanged only by PLAY or a drain-complete, only when the fill buffer is exactly full, and
together with the index and the count (R154, 20_memory.md R95, R98). -/
def Obligations.RolesExchangeOnlyWhenFull : Prop :=
  ∀ (i : Instr) (s t : State) (ch : Chan), exec i s = .next t → i ≠ .sysReset →
    (t.chan ch).act ≠ (s.chan ch).act →
    (s.chan ch).fillIndex = 2048 ∧ (t.chan ch).fillIndex = 0 ∧ (t.chan ch).swaps = (s.chan ch).swaps + 1 ∧
    (t.chan ch).buf0 = (s.chan ch).buf0 ∧ (t.chan ch).buf1 = (s.chan ch).buf1 ∧
    ((∃ p, runsFrame i s (.play ch p)) ∨ drains i s ch)

/-- While an output runs, no event writes the buffer its engine reads (20_memory.md R84, R96). -/
def Obligations.RunningBufferIsNeverWritten : Prop :=
  ∀ (i : Instr) (s t : State) (ch : Chan), s.Good → exec i s = .next t →
    (s.chan ch).outState = .running → (t.chan ch).outState = .running →
    (t.chan ch).buf (s.chan ch).act = (s.chan ch).buf (s.chan ch).act

/-- The output read port at every output resolution (20_memory.md R83, 44_output_driver.md R308, R309; entry 18),
and what an output plays at the next tick, at its engine's drain position. -/
def Obligations.OutputPortReadsTheActiveBuffer : Prop :=
  ∀ (s : State) (ch : Chan) (k : Nat),
    ((s.chan ch).outState = .running → k < 2048 →
      outputRead s ch k = some (((s.chan ch).buf (s.chan ch).act).read s.params.outBits k)) ∧
    ((s.chan ch).outState = .fallback → outputRead s ch k = some (2 ^ (s.params.outBits - 1))) ∧
    ((s.chan ch).outState = .off → outputRead s ch k = none) ∧
    ((s.ext.engine ch).position = k → outputNow s ch = outputRead s ch k)

/-! ## Commands -/

/-- PLAY of a channel that is not playing (43_dispatcher.md R262, D19; 44_output_driver.md R301, R303): swap if
exactly full, mark playing, clear underrun, start the clock if stopped, start the engine on the active buffer, so
that it drains from slot 0; a failed start falls back (the collaborators' state: entry 22). -/
def Obligations.PlayStartsAStoppedChannel : Prop :=
  ∀ (s : State) (ch : Chan) (p : Half), (s.chan ch).isPlaying = false →
    let c := s.chan ch
    let act' := if c.fillIndex = 2048 then c.act.other else c.act
    exec (.play ch p) s = .next (State.endEvent (State.setChan
      { s with
        clkRunning := true
        env := s.drawn.env
        ext := Collaborators.setEngine
          { s.ext with clockPhase := if s.clkRunning = true then s.ext.clockPhase else none } ch
          (if s.answer = .quiet then { drain := .draining, position := 0 } else (s.ext.engine ch).failed)
        stats := { s.stats with commandFrames := s.stats.commandFrames + 1 }
        trace := s.trace ++ (if s.clkRunning = true then [] else [Action.clkStart]) ++ [.outStart ch act' 2048] ++
          (if s.answer = .quiet then [] else [.diag .startFail (some ch.toNat), .outFallback ch]) } ch
      { c with
        act := act'
        fillIndex := if c.fillIndex = 2048 then 0 else c.fillIndex
        swaps := if c.fillIndex = 2048 then c.swaps + 1 else c.swaps
        isPlaying := true
        underrun := false
        outState := if s.answer = .quiet then .running else .fallback }))

/-- PLAY of a channel that is already playing (R262, R302, D15): the prior session is torn down first, a timeout
counted; the clock is left running (the collaborators' state: entry 22). -/
def Obligations.PlayRestartsAPlayingChannel : Prop :=
  ∀ (s : State) (ch : Chan) (p : Half), (s.chan ch).isPlaying = true →
    let c := s.chan ch
    let act' := if c.fillIndex = 2048 then c.act.other else c.act
    exec (.play ch p) s = .next (State.endEvent (State.setChan
      { s with
        clkRunning := true
        env := s.drawn.drawn.env
        ext := Collaborators.setEngine
          { s.ext with clockPhase := if s.clkRunning = true then s.ext.clockPhase else none } ch
          (if s.drawn.answer = .quiet then { drain := .draining, position := 0 }
          else ((s.ext.engine ch).disabled s.answer).failed)
        stats := { s.stats with
          commandFrames := s.stats.commandFrames + 1
          transportFaults :=
            if s.answer = .quiet then s.stats.transportFaults else s.stats.transportFaults + 1 }
        trace := s.trace ++ [Action.outDisable ch] ++
          (if s.answer = .quiet then [] else [.diag .outPollTimeout (some ch.toNat)]) ++
          (if s.clkRunning = true then [] else [.clkStart]) ++ [.outStart ch act' 2048] ++
          (if s.drawn.answer = .quiet then [] else [.diag .startFail (some ch.toNat), .outFallback ch]) } ch
      { c with
        act := act'
        fillIndex := if c.fillIndex = 2048 then 0 else c.fillIndex
        swaps := if c.fillIndex = 2048 then c.swaps + 1 else c.swaps
        isPlaying := true
        underrun := false
        outState := if s.drawn.answer = .quiet then .running else .fallback }))

/-- STOP of a playing channel (R263, 44_output_driver.md R302, R303, R310): the engine is disabled, a timeout
counted, and the clock stopped when the other channel is idle. The engine stops where the disable completed and may
go on where it timed out (R308; entry 22). -/
def Obligations.StopHaltsAPlayingChannel : Prop :=
  ∀ (s : State) (ch : Chan) (p : Half), (s.chan ch).isPlaying = true →
    exec (.stop ch p) s = .next (State.endEvent (State.setChan
      { s with
        clkRunning := s.clkRunning && (s.chan ch.other).isPlaying
        env := s.drawn.env
        ext := s.ext.setEngine ch { s.ext.engine ch with
          drain := if s.answer = .quiet then .stopped else .undisabled }
        stats := { s.stats with
          commandFrames := s.stats.commandFrames + 1
          transportFaults :=
            if s.answer = .quiet then s.stats.transportFaults else s.stats.transportFaults + 1 }
        trace := s.trace ++ [Action.outDisable ch] ++
          (if s.answer = .quiet then [] else [.diag .outPollTimeout (some ch.toNat)]) ++
          (if s.clkRunning = true ∧ (s.chan ch.other).isPlaying = false then [.clkStop] else []) } ch
      { s.chan ch with isPlaying := false, outState := .off }))

/-- STOP of a channel that is not playing counts the command and does nothing else (R263, D21). -/
def Obligations.StopOfAStoppedChannelOnlyCounts : Prop :=
  ∀ (s : State) (ch : Chan) (p : Half), (s.chan ch).isPlaying = false →
    exec (.stop ch p) s = .next (State.endEvent
      { s with stats := { s.stats with commandFrames := s.stats.commandFrames + 1 } })

/-- VOLUME (R264): the volume becomes min(param, 100). -/
def Obligations.VolumeStoresTheClampedParam : Prop :=
  ∀ (s : State) (ch : Chan) (p : Half),
    exec (.volume ch p) s = .next (State.endEvent (State.setChan
      { s with stats := { s.stats with commandFrames := s.stats.commandFrames + 1 } } ch
      { s.chan ch with volume := if p.toNat ≤ 100 then p.toNat else 100 }))

/-- RESET (R265, 40_audio_channel.md R156, D20): the STOP sequence where the channel plays, then `is_playing`,
`fill_index` and `underrun` cleared and both buffers at MID; volume, roles and counters kept (the engine's state:
entry 22). -/
def Obligations.ResetReinitializesTheChannel : Prop :=
  ∀ (s : State) (ch : Chan) (p : Half),
    let c := s.chan ch
    let played := c.isPlaying = true
    let ob := s.params.outBits
    ∃ b0 b1 : Slots, (∀ k, b0.read ob k = 2 ^ (ob - 1)) ∧ (∀ k, b1.read ob k = 2 ^ (ob - 1)) ∧
    b0.wf ob = true ∧ b1.wf ob = true ∧
    exec (.reset ch p) s = .next (State.endEvent (State.setChan
      { s with
        clkRunning := if played then s.clkRunning && (s.chan ch.other).isPlaying else s.clkRunning
        env := if played then s.drawn.env else s.env
        ext := if played then s.ext.setEngine ch { s.ext.engine ch with
          drain := if s.answer = .quiet then .stopped else .undisabled } else s.ext
        stats := { s.stats with
          commandFrames := s.stats.commandFrames + 1
          transportFaults :=
            if played ∧ s.answer = .adverse then s.stats.transportFaults + 1 else s.stats.transportFaults }
        trace := s.trace ++ (if played then [Action.outDisable ch] else []) ++
          (if played ∧ s.answer = .adverse then [.diag .outPollTimeout (some ch.toNat)] else []) ++
          (if played ∧ s.clkRunning = true ∧ (s.chan ch.other).isPlaying = false then [.clkStop] else []) } ch
      { c with
        buf0 := b0
        buf1 := b1
        fillIndex := 0
        isPlaying := false
        underrun := false
        outState := if played then .off else c.outState }))

/-- The param bytes of PLAY, STOP and RESET are ignored (30_encoding.md R116, D22). -/
def Obligations.ParamOfPlayStopResetIsIgnored : Prop :=
  ∀ (s : State) (ch : Chan) (p q : Half),
    exec (.play ch p) s = exec (.play ch q) s ∧ exec (.stop ch p) s = exec (.stop ch q) s ∧
    exec (.reset ch p) s = exec (.reset ch q) s

/-- A DATA term whose count is outside 1..CAP is dropped as BAD_COUNT (R233; the model's choice for a term the
decoder never gives, entry 10). -/
def Obligations.DataOfAnIllegalCountIsDropped : Prop :=
  ∀ (s : State) (ch : Chan) (xs : List Half), (xs.length = 0 ∨ 2048 < xs.length) →
    exec (.data ch xs) s = .next (State.endEvent { s with
      stats := { s.stats with invalidChanLen := s.stats.invalidChanLen + 1 }
      trace := s.trace ++ [.diag .badCount (some xs.length)] })

/-! ## Output events -/

/-- DRAIN_HALF does nothing (44_output_driver.md R304, D16). -/
def Obligations.DrainHalfIsInformational : Prop :=
  ∀ (s : State) (n : Nat), n < 2 → exec (.drainHalf n) s = .next s.endEvent

/-- DRAIN_COMPLETE of a channel that is not playing or not RUNNING is ignored (R305, D16). -/
def Obligations.StrayDrainCompleteIsIgnored : Prop :=
  ∀ (s : State) (ch : Chan), ((s.chan ch).isPlaying = false ∨ (s.chan ch).outState ≠ .running) →
    exec (.drainComplete ch.toNat) s = .next s.endEvent

/-- DRAIN_COMPLETE with a full fill buffer (R306, D18): swap, clear underrun, restart on the new active buffer, so
that its engine drains from slot 0; a failed restart falls back (the engine's state: entry 22). -/
def Obligations.DrainCompleteSwapsAFullBuffer : Prop :=
  ∀ (s : State) (ch : Chan), (s.chan ch).isPlaying = true → (s.chan ch).outState = .running →
    (s.chan ch).fillIndex = 2048 →
    let c := s.chan ch
    exec (.drainComplete ch.toNat) s = .next (State.endEvent (State.setChan
      { s with
        env := s.drawn.env
        ext := s.ext.setEngine ch
          (if s.answer = .quiet then { drain := .draining, position := 0 } else (s.ext.engine ch).failed)
        trace := s.trace ++ [Action.outStart ch c.act.other 2048] ++
          (if s.answer = .quiet then [] else [.diag .startFail (some ch.toNat), .outFallback ch]) } ch
      { c with
        act := c.act.other
        fillIndex := 0
        swaps := c.swaps + 1
        underrun := false
        outState := if s.answer = .quiet then .running else .fallback }))

/-- DRAIN_COMPLETE with a fill buffer that is not full (R307): underrun set and counted, nothing else. -/
def Obligations.DrainCompleteFlagsAnUnderrun : Prop :=
  ∀ (s : State) (ch : Chan), (s.chan ch).isPlaying = true → (s.chan ch).outState = .running →
    (s.chan ch).fillIndex < 2048 →
    exec (.drainComplete ch.toNat) s = .next (State.endEvent (State.setChan
      { s with trace := s.trace ++ [.diag .underrun (some ch.toNat)] } ch
      { s.chan ch with underrun := true, underruns := (s.chan ch).underruns + 1 }))

/-! ## The ready line -/

/-- flow(s) (45_flow_controller.md R340). -/
def Obligations.ReadyFollowsTheTruthTable : Prop :=
  ∀ s : State,
    ((s.c0.isPlaying = true ∨ s.c1.isPlaying = true) → flow s = true) ∧
    (s.c0.isPlaying = false → s.c1.isPlaying = false →
      (flow s = true ↔ s.c0.fillIndex < 2048 ∧ s.c1.fillIndex < 2048))

/-- The line is not changed by errors, received bytes, select assertions, half drains, underruns, reads or
counter resets (R342). -/
def Obligations.ReadyLineIgnoresTheseEvents : Prop :=
  ∀ (s t : State) (i : Instr), s.readyOut = flow s → exec i s = .next t →
    (i = .selAssert ∨ i = .rxError ∨ (∃ b, i = .rxByte b) ∨ (∃ n, i = .drainHalf n) ∨
      (∃ off size, i = .statusRead off size) ∨ (∃ off size v, i = .ctrlWrite off size v) ∨
      (i = .selDeassert ∧ ∃ r, decode s.captured = .error r) ∨
      (∃ ch : Chan, i = .drainComplete ch.toNat ∧ (s.chan ch).fillIndex ≠ 2048)) →
    t.readyOut = s.readyOut

/-! ## The status window -/

/-- The bits of STATUS (10_state.md R59, D26). -/
def Obligations.StatusWordHasItsBits : Prop :=
  ∀ s : State, let w := statusWord s
    w.getLsbD 0 = s.readyOut ∧ w.getLsbD 1 = decide (s.rx.state = .capturing) ∧ w.getLsbD 2 = s.rx.armed ∧
    w.getLsbD 3 = s.clkRunning ∧ ∀ k, 4 ≤ k → w.getLsbD k = false

/-- The bits of CH_STATUS (R60, R55, D26). -/
def Obligations.ChannelStatusWordHasItsBits : Prop :=
  ∀ c : Channel, let w := chStatusWord c
    w.getLsbD 0 = c.isPlaying ∧ w.getLsbD 1 = c.underrun ∧ w.getLsbD 2 = decide (1024 ≤ c.fillIndex) ∧
    w.getLsbD 3 = decide (c.act = .b1) ∧
    w.extractLsb' 4 2 = (match c.outState with | .off => 0 | .running => 1 | .fallback => 2) ∧
    ∀ k, 6 ≤ k → w.getLsbD k = false

/-- STATUS_READ returns the word of the map of R58 and changes nothing else (46_status_control.md R360, D26). -/
def Obligations.StatusReadReturnsTheMappedWord : Prop :=
  ∀ s : State,
    let reads (off : Nat) (w : Word) : Prop :=
      exec (.statusRead off .word) s = .next (State.endEvent { s with readData := some w })
    reads 0x00 (statusWord s) ∧ reads 0x04 (BitVec.ofNat 32 s.rx.count) ∧ reads 0x08 s.stats.lastCaptured ∧
    reads 0x0C s.stats.transportFaults ∧ reads 0x10 s.stats.invalidHeader ∧ reads 0x14 s.stats.invalidChanLen ∧
    reads 0x18 s.stats.commandFrames ∧ reads 0x1C s.stats.dataFrames ∧
    (∀ ch : Chan,
      reads (0x20 + 0x20 * ch.toNat) (chStatusWord (s.chan ch)) ∧
      reads (0x24 + 0x20 * ch.toNat) (BitVec.ofNat 32 (s.chan ch).fillIndex) ∧
      reads (0x28 + 0x20 * ch.toNat) (BitVec.ofNat 32 (s.chan ch).volume) ∧
      reads (0x2C + 0x20 * ch.toNat) (s.chan ch).totalSamples ∧
      reads (0x30 + 0x20 * ch.toNat) (s.chan ch).swaps ∧
      reads (0x34 + 0x20 * ch.toNat) (s.chan ch).underruns ∧
      reads (0x38 + 0x20 * ch.toNat) 0 ∧ reads (0x3C + 0x20 * ch.toNat) 0) ∧
    ∀ off, 0x60 ≤ off → off ≤ 0x7C → off % 4 = 0 → reads off 0

/-- The counter reset (R361, D25): the channels' three counters and all six ErrorStats fields, nothing else. -/
def Obligations.CounterResetClearsOnlyCounters : Prop :=
  ∀ (s : State) (v : Nat), v < 2 ^ 32 → v % 2 = 1 →
    exec (.ctrlWrite 0x60 .word v) s = .next (State.endEvent { s with
      c0 := { s.c0 with totalSamples := 0, swaps := 0, underruns := 0 }
      c1 := { s.c1 with totalSamples := 0, swaps := 0, underruns := 0 }
      stats := ⟨0, 0, 0, 0, 0, 0⟩ })

/-- Any other CTRL_WRITE of an aligned word changes nothing (R362, R363, D25, D26). -/
def Obligations.OtherWindowWritesAreIgnored : Prop :=
  ∀ (s : State) (off v : Nat), off ≤ 0x7C → off % 4 = 0 → v < 2 ^ 32 → (off ≠ 0x60 ∨ v % 2 = 0) →
    exec (.ctrlWrite off .word v) s = .next s.endEvent

/-- A window access inside the window that is not an aligned word is refused (10_state.md R62, U19, D26;
entry 11). -/
def Obligations.UnalignedWindowAccessIsRefused : Prop :=
  ∀ (s : State) (off v : Nat) (size : AccessSize), off ≤ 0x7C → v < 2 ^ 32 → (off % 4 ≠ 0 ∨ size ≠ .word) →
    exec (.statusRead off size) s = .refused .notAnAlignedWord ∧
    exec (.ctrlWrite off size v) s = .refused .notAnAlignedWord

/-- An event with an operand outside its range is refused (30_encoding.md R131, U20; entry 12). -/
def Obligations.OutOfRangeOperandIsRefused : Prop :=
  ∀ s : State,
    (∀ b, 256 ≤ b → exec (.rxByte b) s = .refused .operandOutOfRange) ∧
    (∀ n, 2 ≤ n → exec (.drainHalf n) s = .refused .operandOutOfRange ∧
      exec (.drainComplete n) s = .refused .operandOutOfRange) ∧
    (∀ off size, 0x7C < off → exec (.statusRead off size) s = .refused .operandOutOfRange) ∧
    (∀ off size v, (0x7C < off ∨ 2 ^ 32 ≤ v) → exec (.ctrlWrite off size v) s = .refused .operandOutOfRange)

/-! ## Reset -/

/-- SYS_RESET (70_reset_and_hazards.md R450, D28): the reset table of 10_state.md R63, no action, pending events
discarded; the landing buffer's bytes are the model's choice (entry 7), and so is that the collaborators are quiet
after it (R451; entry 22). The parameters stay (entry 14). -/
def Obligations.SysResetGivesTheResetTable : Prop :=
  ∀ s : State, exec .sysReset s = .next
    { s with
      rx := { state := .idle, armed := false, count := 0, land := s.rx.land }
      c0 := State.reset.c0
      c1 := State.reset.c1
      clkRunning := false
      stats := State.reset.stats
      readyOut := true
      env := { s.env with pending := [] }
      ext := {
        engine0 := { drain := .stopped, position := 0 }
        engine1 := { drain := .stopped, position := 0 }
        clockPhase := none } }

/-- The values of the reset table (10_state.md R63, D28), and this hardware's parameters (00_scope.md R8). -/
def Obligations.ResetStateHasTheTableValues : Prop :=
  State.reset.rx.state = .idle ∧ State.reset.rx.armed = false ∧ State.reset.rx.count = 0 ∧
  (∀ ch : Chan, let c := State.reset.chan ch
    (∀ b k, (c.buf b).read State.reset.params.outBits k = 2048) ∧ c.act = .b0 ∧ c.fillIndex = 0 ∧ c.isPlaying = false ∧
    c.underrun = false ∧ c.volume = 100 ∧ c.totalSamples = 0 ∧ c.swaps = 0 ∧ c.underruns = 0 ∧
    c.outState = .off) ∧
  State.reset.clkRunning = false ∧ State.reset.stats.transportFaults = 0 ∧ State.reset.stats.invalidHeader = 0 ∧
  State.reset.stats.invalidChanLen = 0 ∧ State.reset.stats.commandFrames = 0 ∧
  State.reset.stats.dataFrames = 0 ∧ State.reset.stats.lastCaptured = 0 ∧ State.reset.readyOut = true ∧
  State.reset.params.outBits = 12 ∧ State.reset.params.selActiveLow = true ∧
  State.reset.params.readyActiveHigh = true

/-! ## Invariants and whole-machine rules -/

/-- The state after reset meets R57, with a legal OUT_BITS and quiet engines (entry 22). -/
def Obligations.ResetStateIsGood : Prop := State.reset.Good

/-- Every step, a tick of the clock too, keeps all of R57, the canonical form of every memory, the agreement of
each engine with its output's record (entry 22), and the parameters. -/
def Obligations.StepKeepsGood : Prop :=
  ∀ s t : State, s.Good → step s = .next t → t.Good ∧ t.params = s.params

/-- PLAY is the only way into playing; STOP, RESET and the system reset are the only ways out (10_state.md R40,
43_dispatcher.md R269). -/
def Obligations.PlayingChangesOnlyByItsCommands : Prop :=
  ∀ (i : Instr) (s t : State) (ch : Chan), exec i s = .next t →
    ((s.chan ch).isPlaying = false → (t.chan ch).isPlaying = true → ∃ p, runsFrame i s (.play ch p)) ∧
    ((s.chan ch).isPlaying = true → (t.chan ch).isPlaying = false →
      i = .sysReset ∨ ∃ p, runsFrame i s (.stop ch p) ∨ runsFrame i s (.reset ch p))

/-- `underrun` is set only by a drain-complete that finds the fill buffer not full, and cleared only by PLAY, a
drain-complete that swaps, RESET and the system reset (10_state.md R41, 90_conflicts.md C7). -/
def Obligations.UnderrunChangesOnlyWhereStated : Prop :=
  ∀ (i : Instr) (s t : State) (ch : Chan), exec i s = .next t →
    ((s.chan ch).underrun = false → (t.chan ch).underrun = true →
      drains i s ch ∧ (s.chan ch).fillIndex ≠ 2048) ∧
    ((s.chan ch).underrun = true → (t.chan ch).underrun = false →
      i = .sysReset ∨ (drains i s ch ∧ (s.chan ch).fillIndex = 2048) ∨
      ∃ p, runsFrame i s (.play ch p) ∨ runsFrame i s (.reset ch p))

/-- `volume` is written only by VOLUME and the system reset (10_state.md R42, C4). -/
def Obligations.VolumeChangesOnlyByVolume : Prop :=
  ∀ (i : Instr) (s t : State) (ch : Chan), exec i s = .next t → (t.chan ch).volume ≠ (s.chan ch).volume →
    i = .sysReset ∨ ∃ p, runsFrame i s (.volume ch p)

/-- An operation on one channel leaves the other channel as it is (60_exceptions.md R422). -/
def Obligations.OtherChannelIsUntouched : Prop :=
  ∀ (i : Instr) (s t : State) (ch : Chan), exec i s = .next t →
    ((∃ p, runsFrame i s (.play ch p) ∨ runsFrame i s (.stop ch p) ∨ runsFrame i s (.volume ch p) ∨
        runsFrame i s (.reset ch p)) ∨
      (∃ xs, runsFrame i s (.data ch xs)) ∨ i = .drainComplete ch.toNat) →
    t.chan ch.other = s.chan ch.other
end

