-- ==== Sys2Proof/Laws/Decode.lean ====
section
/-! SUPPORT. The small lemmas of the decoder and the encoder: byte order, channel bytes, payloads, and the two
ways a span decodes (spec 30_encoding.md R111 to R121, 42_parser.md). -/

namespace Sys2Proof

/-! ## Byte order (20_memory.md R86) -/

theorem u16be_hi_lo (h : Half) : u16be (hiByte h) (loByte h) = h := by
  unfold u16be hiByte loByte
  apply BitVec.eq_of_getLsbD_eq
  intro i hi
  simp only [BitVec.getLsbD_append, BitVec.getLsbD_extractLsb']
  by_cases h8 : i < 8
  · simp [h8]
  · simp [h8, show i - 8 < 8 by omega, show 8 + (i - 8) = i by omega]

theorem s16le_lo_hi (h : Half) : s16le (loByte h) (hiByte h) = h := u16be_hi_lo h

theorem hiByte_u16be (a b : Byte) : hiByte (u16be a b) = a := by
  unfold u16be hiByte
  apply BitVec.eq_of_getLsbD_eq
  intro i hi
  simp only [BitVec.getLsbD_append, BitVec.getLsbD_extractLsb']
  simp [show ¬ 8 + i < 8 by omega, hi]

theorem loByte_u16be (a b : Byte) : loByte (u16be a b) = b := by
  unfold u16be loByte
  apply BitVec.eq_of_getLsbD_eq
  intro i hi
  simp only [BitVec.getLsbD_append, BitVec.getLsbD_extractLsb']
  simp [hi]

theorem u16be_toNat (a b : Byte) : (u16be a b).toNat = 256 * a.toNat + b.toNat := by
  unfold u16be
  rw [BitVec.toNat_append]
  have := b.isLt
  rw [← Nat.shiftLeft_add_eq_or_of_lt (b := b.toNat) (i := 8) (by omega), Nat.shiftLeft_eq]
  omega

/-! ## Channel bytes (R114) -/

theorem ofByte_toByte (ch : Chan) : Chan.ofByte ch.toByte = some ch := by cases ch <;> rfl

theorem ofByte_some {b : Byte} {ch : Chan} (h : Chan.ofByte b = some ch) : ch.toByte = b := by
  unfold Chan.ofByte at h
  split at h
  · cases h; simp_all [Chan.toByte]
  · split at h
    · cases h; simp_all [Chan.toByte]
    · cases h

theorem ofByte_none {b : Byte} : Chan.ofByte b = none ↔ 1 < b.toNat := by
  unfold Chan.ofByte
  split
  · simp_all
  · split
    · simp_all
    · rename_i h0 h1
      simp only [true_iff]
      have : b.toNat ≠ 0 := fun h => h0 (BitVec.eq_of_toNat_eq (by simpa using h))
      have : b.toNat ≠ 1 := fun h => h1 (BitVec.eq_of_toNat_eq (by simpa using h))
      omega

/-! ## Payloads (R112, R118, R236) -/

theorem encodeSamples_length (xs : List Half) : (encodeSamples xs).length = 2 * xs.length := by
  induction xs with
  | nil => rfl
  | cons x xs ih => simp [encodeSamples, ih]; omega

/-- Decoding as many samples as were encoded gives them back, whatever follows. -/
theorem decodeSamples_encode (xs : List Half) (extra : List Byte) :
    decodeSamples xs.length (encodeSamples xs ++ extra) = xs := by
  induction xs with
  | nil => cases extra <;> rfl
  | cons x xs ih => simp [encodeSamples, decodeSamples, ih, s16le_lo_hi]

/-- The decoded samples, encoded again, are the bytes they came from. -/
theorem encode_decodeSamples : ∀ (n : Nat) (bs : List Byte), 2 * n ≤ bs.length →
    (decodeSamples n bs).length = n ∧ encodeSamples (decodeSamples n bs) = bs.take (2 * n)
  | 0, _, _ => by simp [decodeSamples, encodeSamples]
  | n + 1, [], h => by simp at h
  | n + 1, [_], h => by simp at h; omega
  | n + 1, lo :: hi :: rest, h => by
    obtain ⟨h1, h2⟩ := encode_decodeSamples n rest (by simp at h; omega)
    refine ⟨by simp [decodeSamples, h1], ?_⟩
    simp only [decodeSamples, encodeSamples, h2]
    rw [show 2 * (n + 1) = 2 * n + 1 + 1 by omega, List.take_succ_cons, List.take_succ_cons]
    rw [show s16le lo hi = u16be hi lo from rfl, loByte_u16be, hiByte_u16be]

/-- Sample `k` is made of bytes `2k` and `2k + 1` of the payload. -/
theorem decodeSamples_getD : ∀ (n : Nat) (bs : List Byte) (k : Nat), 2 * n ≤ bs.length → k < n →
    (decodeSamples n bs).getD k 0 = s16le (byteAt bs (2 * k)) (byteAt bs (2 * k + 1))
  | 0, _, _, _, hk => by omega
  | n + 1, [], _, h, _ => by simp at h
  | n + 1, [_], _, h, _ => by simp at h; omega
  | n + 1, lo :: hi :: rest, 0, _, _ => rfl
  | n + 1, lo :: hi :: rest, k + 1, h, hk => by
    have := decodeSamples_getD n rest k (by simp at h; omega) (by omega)
    simpa [decodeSamples, byteAt, Nat.mul_add] using this

/-! ## Spans -/

theorem span5 {bs : List Byte} (h : 5 ≤ bs.length) :
    bs = [byteAt bs 0, byteAt bs 1, byteAt bs 2, byteAt bs 3, byteAt bs 4] ++ bs.drop 5 := by
  match bs, h with
  | a :: b :: c :: d :: e :: r, _ => rfl

theorem span4 {bs : List Byte} (h : 4 ≤ bs.length) :
    bs = [byteAt bs 0, byteAt bs 1, byteAt bs 2, byteAt bs 3] ++ bs.drop 4 := by
  match bs, h with
  | a :: b :: c :: d :: r, _ => rfl

/-- The four command codes, said once (R261). -/
theorem decodeCode_cases {ch : Chan} {c : Byte} {p : Half} {i : Instr} (h : decodeCode ch c p = .ok i) :
    (c = 0x01 ∧ i = .play ch p) ∨ (c = 0x02 ∧ i = .stop ch p) ∨ (c = 0x03 ∧ i = .volume ch p) ∨
    (c = 0xFF ∧ i = .reset ch p) := by
  unfold decodeCode at h
  split at h
  · cases h; simp_all
  split at h
  · cases h; simp_all
  split at h
  · cases h; simp_all
  split at h
  · cases h; simp_all
  · cases h

/-- The two ways a span decodes, said once: a Command frame or a Data frame (R120). -/
theorem decode_cases {bs : List Byte} {i : Instr} (h : decode bs = .ok i) :
    (5 ≤ bs.length ∧ byteAt bs 0 = 0xC0 ∧ ∃ ch, Chan.ofByte (byteAt bs 1) = some ch ∧
      decodeCode ch (byteAt bs 2) (u16be (byteAt bs 3) (byteAt bs 4)) = .ok i) ∨
    (byteAt bs 0 = 0xDA ∧ 1 ≤ sampleCount bs ∧ sampleCount bs ≤ 2048 ∧ 4 + 2 * sampleCount bs ≤ bs.length ∧
      ∃ ch, Chan.ofByte (byteAt bs 1) = some ch ∧
        i = .data ch (decodeSamples (sampleCount bs) (bs.drop 4))) := by
  simp only [decode, decodeCommand, decodeData, Config.minCapture, Config.cap, Config.dataHdrLen, Config.cmdLen] at h
  split at h
  · cases h
  split at h
  · split at h
    · cases h
    split at h
    · cases h
    · rename_i ch hch
      exact Or.inl ⟨by omega, ‹_›, ch, hch, h⟩
  split at h
  · split at h
    · cases h
    split at h
    · cases h
    split at h
    · cases h
    · rename_i ch hch
      cases h
      exact Or.inr ⟨‹_›, by omega, by omega, by omega, ch, hch, rfl⟩
  · cases h

/-- The decoder gives frame operations only. -/
theorem decode_isFrame {bs : List Byte} {i : Instr} (h : decode bs = .ok i) : i.isEvent = false := by
  rcases decode_cases h with ⟨_, _, ch, _, hc⟩ | ⟨_, _, _, _, ch, _, rfl⟩
  · rcases decodeCode_cases hc with ⟨_, rfl⟩ | ⟨_, rfl⟩ | ⟨_, rfl⟩ | ⟨_, rfl⟩ <;> rfl
  · rfl

end Sys2Proof
end

