-- ==== Sys2Proof/Laws/Memory.lean ====
section
/-! SUPPORT. The laws of the sparse memories: read after write, every other cell untouched, and the canonical
form kept (spec 20_memory.md R80 to R82). -/

namespace Sys2Proof.Machine

variable {α : Type} [DecidableEq α] {d : α} {hi : Nat}

theorem cellsWf_cons {lo b : Nat} {v : α} {m : List (Nat × α)} :
    cellsWf d hi lo ((b, v) :: m) = true ↔ lo ≤ b ∧ b < hi ∧ v ≠ d ∧ cellsWf d hi (b + 1) m = true := by
  simp [cellsWf]

theorem cellsWf_mono {lo lo' : Nat} (h : lo' ≤ lo) :
    ∀ {m : List (Nat × α)}, cellsWf d hi lo m = true → cellsWf d hi lo' m = true
  | [], _ => rfl
  | (_, _) :: _, hm => by
    obtain ⟨h1, h2, h3, h4⟩ := cellsWf_cons.1 hm
    exact cellsWf_cons.2 ⟨by omega, h2, h3, h4⟩

/-- Below the first address of a canonical memory every cell reads as unlisted. -/
theorem cellsRead_below : ∀ {m : List (Nat × α)} {lo a : Nat},
    cellsWf d hi lo m = true → a < lo → cellsRead d m a = d
  | [], _, _, _, _ => rfl
  | (b, _) :: _, lo, a, hm, h => by
    obtain ⟨h1, _, _, h4⟩ := cellsWf_cons.1 hm
    rw [cellsRead, if_neg (by omega)]
    exact cellsRead_below h4 (by omega)

/-- A canonical memory lists nothing outside its space. -/
theorem cellsRead_outside : ∀ {m : List (Nat × α)} {lo a : Nat},
    cellsWf d hi lo m = true → hi ≤ a → cellsRead d m a = d
  | [], _, _, _, _ => rfl
  | (b, _) :: _, lo, a, hm, h => by
    obtain ⟨_, h2, _, h4⟩ := cellsWf_cons.1 hm
    rw [cellsRead, if_neg (by omega)]
    exact cellsRead_outside h4 h

/-- A write leaves every other cell alone. -/
theorem cellsRead_write_other {a a' : Nat} (h : a' ≠ a) (v : α) :
    ∀ m : List (Nat × α), cellsRead d (cellsWrite d m a v) a' = cellsRead d m a'
  | [] => by
    rw [cellsWrite]; split <;> simp [cellsRead, h]
  | (b, w) :: m => by
    rw [cellsWrite]
    split
    · split <;> simp [cellsRead, h]
    · split
      · rename_i hab
        subst hab
        split <;> simp [cellsRead, h]
      · simp only [cellsRead, cellsRead_write_other h v m]

/-- A read of the cell just written gives the value written. -/
theorem cellsRead_write_same (a : Nat) (v : α) : ∀ {m : List (Nat × α)} {lo : Nat},
    cellsWf d hi lo m = true → cellsRead d (cellsWrite d m a v) a = v
  | [], _, _ => by
    rw [cellsWrite]; split
    · rename_i hv; simp [cellsRead, hv]
    · simp [cellsRead]
  | (b, w) :: m, lo, hm => by
    obtain ⟨_, _, _, h4⟩ := cellsWf_cons.1 hm
    rw [cellsWrite]
    split
    · rename_i hab
      split
      · rename_i hv
        rw [cellsRead, if_neg (by omega), hv]
        exact cellsRead_below h4 (by omega)
      · simp [cellsRead]
    · split
      · rename_i hab
        subst hab
        split
        · rename_i hv; rw [hv]; exact cellsRead_below h4 (by omega)
        · simp [cellsRead]
      · rename_i hne
        rw [cellsRead, if_neg hne]
        exact cellsRead_write_same a v h4

/-- A write inside the space keeps the canonical form. -/
theorem cellsWf_write {a : Nat} (ha : a < hi) (v : α) : ∀ {m : List (Nat × α)} {lo : Nat},
    lo ≤ a → cellsWf d hi lo m = true → cellsWf d hi lo (cellsWrite d m a v) = true
  | [], lo, hlo, _ => by
    rw [cellsWrite]; split
    · rfl
    · rename_i hv; exact cellsWf_cons.2 ⟨hlo, ha, hv, rfl⟩
  | (b, w) :: m, lo, hlo, hm => by
    obtain ⟨h1, h2, h3, h4⟩ := cellsWf_cons.1 hm
    rw [cellsWrite]
    split
    · rename_i hab
      split
      · exact hm
      · rename_i hv
        exact cellsWf_cons.2 ⟨hlo, ha, hv, cellsWf_cons.2 ⟨by omega, h2, h3, h4⟩⟩
    · split
      · rename_i hab
        subst hab
        split
        · exact cellsWf_mono (by omega) h4
        · rename_i hv; exact cellsWf_cons.2 ⟨h1, ha, hv, h4⟩
      · exact cellsWf_cons.2 ⟨h1, h2, h3, cellsWf_write ha v (by omega) h4⟩

/-! ## The landing buffer -/

theorem Memory.read_write_same {m : Memory} (hm : m.wf = true) (a : Nat) (v : Byte) :
    (m.write a v).read a = v := cellsRead_write_same a v hm

theorem Memory.read_write_other {a a' : Nat} (h : a' ≠ a) (m : Memory) (v : Byte) :
    (m.write a v).read a' = m.read a' := cellsRead_write_other h v m

theorem Memory.wf_write {m : Memory} (hm : m.wf = true) {a : Nat} (ha : a < Config.landSize) (v : Byte) :
    (m.write a v).wf = true := cellsWf_write ha v (Nat.zero_le a) hm

/-! ## The sample buffers -/

/-- A write keeps a bound that every listed cell and the value written meet. -/
theorem cellsWrite_all {p : Nat × α → Bool} {a : Nat} {v : α} (hv : p (a, v) = true) :
    ∀ {m : List (Nat × α)}, m.all p = true → (cellsWrite d m a v).all p = true
  | [], _ => by rw [cellsWrite]; split <;> simp [hv]
  | (b, w) :: m, hm => by
    obtain ⟨hb, hm'⟩ := (by simpa only [List.all_cons, Bool.and_eq_true] using hm :
      p (b, w) = true ∧ m.all p = true)
    rw [cellsWrite]
    split
    · split <;> simp only [List.all_cons, hv, hb, hm', Bool.and_self]
    · split
      · split <;> simp only [List.all_cons, hv, hm', Bool.and_self]
      · simp only [List.all_cons, hb, cellsWrite_all hv hm', Bool.and_self]

theorem Slots.wf_iff {m : Slots} {ob : Nat} : m.wf ob = true ↔
    cellsWf (Config.midOf ob) Config.cap 0 m = true ∧
      m.all (fun c => decide (c.2 ≤ Config.maxCodeOf ob)) = true := by
  simp only [Slots.wf, Bool.and_eq_true]

theorem Slots.read_write_same {m : Slots} {ob : Nat} (hm : m.wf ob = true) (k : Nat) (v : Code) :
    (m.write ob k v).read ob k = v := cellsRead_write_same k v (Slots.wf_iff.1 hm).1

theorem Slots.read_write_other {k k' : Nat} (h : k' ≠ k) (m : Slots) (ob : Nat) (v : Code) :
    (m.write ob k v).read ob k' = m.read ob k' := cellsRead_write_other h v m

/-- Writing a code inside the space keeps the canonical form. -/
theorem Slots.wf_write {m : Slots} {ob : Nat} (hm : m.wf ob = true) {k : Nat} (hk : k < Config.cap) {v : Code}
    (hv : v ≤ Config.maxCodeOf ob) : (m.write ob k v).wf ob = true :=
  Slots.wf_iff.2 ⟨cellsWf_write hk v (Nat.zero_le k) (Slots.wf_iff.1 hm).1,
    cellsWrite_all (by simpa using hv) (Slots.wf_iff.1 hm).2⟩

@[simp] theorem Slots.wf_midScale (ob : Nat) : Slots.midScale.wf ob = true := rfl

@[simp] theorem Slots.read_midScale (ob k : Nat) : Slots.midScale.read ob k = Config.midOf ob := rfl

/-! ## The captured span -/

theorem captured_length (s : State) : s.captured.length = min s.rx.count Config.landSize := by
  simp [State.captured]

theorem captured_getElem? (s : State) {k : Nat} (h : k < min s.rx.count Config.landSize) :
    s.captured[k]? = some (s.rx.land.read k) := by
  simp only [State.captured, List.getElem?_map]
  rw [List.getElem?_range h]; rfl

end Sys2Proof.Machine
end

