-- ==== Sys2Proof/Laws/State.lean ====
section
/-! SUPPORT. One lemma per field per update of the state, true by definition, so that no proof unfolds a record
update; and reading a channel back after writing one. -/

namespace Sys2Proof.Machine

/-! ### `emit` -/

@[simp] theorem emit_params (a : Action) (s : State) : (emit a s).params = s.params := rfl
@[simp] theorem emit_rx (a : Action) (s : State) : (emit a s).rx = s.rx := rfl
@[simp] theorem emit_c0 (a : Action) (s : State) : (emit a s).c0 = s.c0 := rfl
@[simp] theorem emit_c1 (a : Action) (s : State) : (emit a s).c1 = s.c1 := rfl
@[simp] theorem emit_clkRunning (a : Action) (s : State) : (emit a s).clkRunning = s.clkRunning := rfl
@[simp] theorem emit_stats (a : Action) (s : State) : (emit a s).stats = s.stats := rfl
@[simp] theorem emit_readyOut (a : Action) (s : State) : (emit a s).readyOut = s.readyOut := rfl
@[simp] theorem emit_env (a : Action) (s : State) : (emit a s).env = s.env := rfl
@[simp] theorem emit_ext (a : Action) (s : State) : (emit a s).ext = s.ext := rfl
@[simp] theorem emit_trace (a : Action) (s : State) : (emit a s).trace = s.trace ++ [a] := rfl
@[simp] theorem emit_readData (a : Action) (s : State) : (emit a s).readData = s.readData := rfl

/-! ### `drawn` -/

@[simp] theorem drawn_params (s : State) : (s.drawn).params = s.params := rfl
@[simp] theorem drawn_rx (s : State) : (s.drawn).rx = s.rx := rfl
@[simp] theorem drawn_c0 (s : State) : (s.drawn).c0 = s.c0 := rfl
@[simp] theorem drawn_c1 (s : State) : (s.drawn).c1 = s.c1 := rfl
@[simp] theorem drawn_clkRunning (s : State) : (s.drawn).clkRunning = s.clkRunning := rfl
@[simp] theorem drawn_stats (s : State) : (s.drawn).stats = s.stats := rfl
@[simp] theorem drawn_readyOut (s : State) : (s.drawn).readyOut = s.readyOut := rfl
@[simp] theorem drawn_env (s : State) : (s.drawn).env = s.env.afterDraw := rfl
@[simp] theorem drawn_ext (s : State) : (s.drawn).ext = s.ext := rfl
@[simp] theorem drawn_trace (s : State) : (s.drawn).trace = s.trace := rfl
@[simp] theorem drawn_readData (s : State) : (s.drawn).readData = s.readData := rfl

/-! ### `record` -/

@[simp] theorem record_params (code : ErrorCode) (info : Option Nat) (s : State) : (record code info s).params = s.params := rfl
@[simp] theorem record_rx (code : ErrorCode) (info : Option Nat) (s : State) : (record code info s).rx = s.rx := rfl
@[simp] theorem record_c0 (code : ErrorCode) (info : Option Nat) (s : State) : (record code info s).c0 = s.c0 := rfl
@[simp] theorem record_c1 (code : ErrorCode) (info : Option Nat) (s : State) : (record code info s).c1 = s.c1 := rfl
@[simp] theorem record_clkRunning (code : ErrorCode) (info : Option Nat) (s : State) : (record code info s).clkRunning = s.clkRunning := rfl
@[simp] theorem record_stats (code : ErrorCode) (info : Option Nat) (s : State) : (record code info s).stats = s.stats.count code := rfl
@[simp] theorem record_readyOut (code : ErrorCode) (info : Option Nat) (s : State) : (record code info s).readyOut = s.readyOut := rfl
@[simp] theorem record_env (code : ErrorCode) (info : Option Nat) (s : State) : (record code info s).env = s.env := rfl
@[simp] theorem record_ext (code : ErrorCode) (info : Option Nat) (s : State) : (record code info s).ext = s.ext := rfl
@[simp] theorem record_trace (code : ErrorCode) (info : Option Nat) (s : State) : (record code info s).trace = s.trace ++ [.diag code info] := rfl
@[simp] theorem record_readData (code : ErrorCode) (info : Option Nat) (s : State) : (record code info s).readData = s.readData := rfl

/-! ### `endEvent` -/

@[simp] theorem endEvent_params (s : State) : (s.endEvent).params = s.params := rfl
@[simp] theorem endEvent_rx (s : State) : (s.endEvent).rx = s.rx := rfl
@[simp] theorem endEvent_c0 (s : State) : (s.endEvent).c0 = s.c0 := rfl
@[simp] theorem endEvent_c1 (s : State) : (s.endEvent).c1 = s.c1 := rfl
@[simp] theorem endEvent_clkRunning (s : State) : (s.endEvent).clkRunning = s.clkRunning := rfl
@[simp] theorem endEvent_stats (s : State) : (s.endEvent).stats = s.stats := rfl
@[simp] theorem endEvent_readyOut (s : State) : (s.endEvent).readyOut = flow s := rfl
@[simp] theorem endEvent_env (s : State) : (s.endEvent).env = s.env := rfl
@[simp] theorem endEvent_ext (s : State) : (s.endEvent).ext = s.ext := rfl
@[simp] theorem endEvent_trace (s : State) : (s.endEvent).trace = s.trace := rfl
@[simp] theorem endEvent_readData (s : State) : (s.endEvent).readData = s.readData := rfl

/-! ### `countCommand` -/

@[simp] theorem countCommand_params (s : State) : (countCommand s).params = s.params := rfl
@[simp] theorem countCommand_rx (s : State) : (countCommand s).rx = s.rx := rfl
@[simp] theorem countCommand_c0 (s : State) : (countCommand s).c0 = s.c0 := rfl
@[simp] theorem countCommand_c1 (s : State) : (countCommand s).c1 = s.c1 := rfl
@[simp] theorem countCommand_clkRunning (s : State) : (countCommand s).clkRunning = s.clkRunning := rfl
@[simp] theorem countCommand_stats (s : State) : (countCommand s).stats = { s.stats with commandFrames := s.stats.commandFrames + 1 } := rfl
@[simp] theorem countCommand_readyOut (s : State) : (countCommand s).readyOut = s.readyOut := rfl
@[simp] theorem countCommand_env (s : State) : (countCommand s).env = s.env := rfl
@[simp] theorem countCommand_ext (s : State) : (countCommand s).ext = s.ext := rfl
@[simp] theorem countCommand_trace (s : State) : (countCommand s).trace = s.trace := rfl
@[simp] theorem countCommand_readData (s : State) : (countCommand s).readData = s.readData := rfl

/-! ### `countData` -/

@[simp] theorem countData_params (s : State) : (countData s).params = s.params := rfl
@[simp] theorem countData_rx (s : State) : (countData s).rx = s.rx := rfl
@[simp] theorem countData_c0 (s : State) : (countData s).c0 = s.c0 := rfl
@[simp] theorem countData_c1 (s : State) : (countData s).c1 = s.c1 := rfl
@[simp] theorem countData_clkRunning (s : State) : (countData s).clkRunning = s.clkRunning := rfl
@[simp] theorem countData_stats (s : State) : (countData s).stats = { s.stats with dataFrames := s.stats.dataFrames + 1 } := rfl
@[simp] theorem countData_readyOut (s : State) : (countData s).readyOut = s.readyOut := rfl
@[simp] theorem countData_env (s : State) : (countData s).env = s.env := rfl
@[simp] theorem countData_ext (s : State) : (countData s).ext = s.ext := rfl
@[simp] theorem countData_trace (s : State) : (countData s).trace = s.trace := rfl
@[simp] theorem countData_readData (s : State) : (countData s).readData = s.readData := rfl

/-! ### `setChan` -/

@[simp] theorem setChan_params (ch : Chan) (c : Channel) (s : State) : (s.setChan ch c).params = s.params := by cases ch <;> rfl
@[simp] theorem setChan_rx (ch : Chan) (c : Channel) (s : State) : (s.setChan ch c).rx = s.rx := by cases ch <;> rfl
@[simp] theorem setChan_clkRunning (ch : Chan) (c : Channel) (s : State) : (s.setChan ch c).clkRunning = s.clkRunning := by cases ch <;> rfl
@[simp] theorem setChan_stats (ch : Chan) (c : Channel) (s : State) : (s.setChan ch c).stats = s.stats := by cases ch <;> rfl
@[simp] theorem setChan_readyOut (ch : Chan) (c : Channel) (s : State) : (s.setChan ch c).readyOut = s.readyOut := by cases ch <;> rfl
@[simp] theorem setChan_env (ch : Chan) (c : Channel) (s : State) : (s.setChan ch c).env = s.env := by cases ch <;> rfl
@[simp] theorem setChan_ext (ch : Chan) (c : Channel) (s : State) : (s.setChan ch c).ext = s.ext := by cases ch <;> rfl
@[simp] theorem setChan_trace (ch : Chan) (c : Channel) (s : State) : (s.setChan ch c).trace = s.trace := by cases ch <;> rfl
@[simp] theorem setChan_readData (ch : Chan) (c : Channel) (s : State) : (s.setChan ch c).readData = s.readData := by cases ch <;> rfl

/-! ### `setEngine` -/

@[simp] theorem setEngine_params (ch : Chan) (e : Engine) (s : State) : (setEngine ch e s).params = s.params := rfl
@[simp] theorem setEngine_rx (ch : Chan) (e : Engine) (s : State) : (setEngine ch e s).rx = s.rx := rfl
@[simp] theorem setEngine_c0 (ch : Chan) (e : Engine) (s : State) : (setEngine ch e s).c0 = s.c0 := rfl
@[simp] theorem setEngine_c1 (ch : Chan) (e : Engine) (s : State) : (setEngine ch e s).c1 = s.c1 := rfl
@[simp] theorem setEngine_clkRunning (ch : Chan) (e : Engine) (s : State) : (setEngine ch e s).clkRunning = s.clkRunning := rfl
@[simp] theorem setEngine_stats (ch : Chan) (e : Engine) (s : State) : (setEngine ch e s).stats = s.stats := rfl
@[simp] theorem setEngine_readyOut (ch : Chan) (e : Engine) (s : State) : (setEngine ch e s).readyOut = s.readyOut := rfl
@[simp] theorem setEngine_env (ch : Chan) (e : Engine) (s : State) : (setEngine ch e s).env = s.env := rfl
@[simp] theorem setEngine_ext (ch : Chan) (e : Engine) (s : State) : (setEngine ch e s).ext = s.ext.setEngine ch e := rfl
@[simp] theorem setEngine_trace (ch : Chan) (e : Engine) (s : State) : (setEngine ch e s).trace = s.trace := rfl
@[simp] theorem setEngine_readData (ch : Chan) (e : Engine) (s : State) : (setEngine ch e s).readData = s.readData := rfl

/-! ### `setOutState` -/

@[simp] theorem setOutState_params (ch : Chan) (o : OutState) (s : State) : (setOutState ch o s).params = s.params := by cases ch <;> rfl
@[simp] theorem setOutState_rx (ch : Chan) (o : OutState) (s : State) : (setOutState ch o s).rx = s.rx := by cases ch <;> rfl
@[simp] theorem setOutState_clkRunning (ch : Chan) (o : OutState) (s : State) : (setOutState ch o s).clkRunning = s.clkRunning := by cases ch <;> rfl
@[simp] theorem setOutState_stats (ch : Chan) (o : OutState) (s : State) : (setOutState ch o s).stats = s.stats := by cases ch <;> rfl
@[simp] theorem setOutState_readyOut (ch : Chan) (o : OutState) (s : State) : (setOutState ch o s).readyOut = s.readyOut := by cases ch <;> rfl
@[simp] theorem setOutState_env (ch : Chan) (o : OutState) (s : State) : (setOutState ch o s).env = s.env := by cases ch <;> rfl
@[simp] theorem setOutState_ext (ch : Chan) (o : OutState) (s : State) : (setOutState ch o s).ext = s.ext := by cases ch <;> rfl
@[simp] theorem setOutState_trace (ch : Chan) (o : OutState) (s : State) : (setOutState ch o s).trace = s.trace := by cases ch <;> rfl
@[simp] theorem setOutState_readData (ch : Chan) (o : OutState) (s : State) : (setOutState ch o s).readData = s.readData := by cases ch <;> rfl

/-! ### `setPlaying` -/

@[simp] theorem setPlaying_params (ch : Chan) (b : Bool) (s : State) : (setPlaying ch b s).params = s.params := by cases ch <;> rfl
@[simp] theorem setPlaying_rx (ch : Chan) (b : Bool) (s : State) : (setPlaying ch b s).rx = s.rx := by cases ch <;> rfl
@[simp] theorem setPlaying_clkRunning (ch : Chan) (b : Bool) (s : State) : (setPlaying ch b s).clkRunning = s.clkRunning := by cases ch <;> rfl
@[simp] theorem setPlaying_stats (ch : Chan) (b : Bool) (s : State) : (setPlaying ch b s).stats = s.stats := by cases ch <;> rfl
@[simp] theorem setPlaying_readyOut (ch : Chan) (b : Bool) (s : State) : (setPlaying ch b s).readyOut = s.readyOut := by cases ch <;> rfl
@[simp] theorem setPlaying_env (ch : Chan) (b : Bool) (s : State) : (setPlaying ch b s).env = s.env := by cases ch <;> rfl
@[simp] theorem setPlaying_ext (ch : Chan) (b : Bool) (s : State) : (setPlaying ch b s).ext = s.ext := by cases ch <;> rfl
@[simp] theorem setPlaying_trace (ch : Chan) (b : Bool) (s : State) : (setPlaying ch b s).trace = s.trace := by cases ch <;> rfl
@[simp] theorem setPlaying_readData (ch : Chan) (b : Bool) (s : State) : (setPlaying ch b s).readData = s.readData := by cases ch <;> rfl

/-! ### `setUnderrun` -/

@[simp] theorem setUnderrun_params (ch : Chan) (b : Bool) (s : State) : (setUnderrun ch b s).params = s.params := by cases ch <;> rfl
@[simp] theorem setUnderrun_rx (ch : Chan) (b : Bool) (s : State) : (setUnderrun ch b s).rx = s.rx := by cases ch <;> rfl
@[simp] theorem setUnderrun_clkRunning (ch : Chan) (b : Bool) (s : State) : (setUnderrun ch b s).clkRunning = s.clkRunning := by cases ch <;> rfl
@[simp] theorem setUnderrun_stats (ch : Chan) (b : Bool) (s : State) : (setUnderrun ch b s).stats = s.stats := by cases ch <;> rfl
@[simp] theorem setUnderrun_readyOut (ch : Chan) (b : Bool) (s : State) : (setUnderrun ch b s).readyOut = s.readyOut := by cases ch <;> rfl
@[simp] theorem setUnderrun_env (ch : Chan) (b : Bool) (s : State) : (setUnderrun ch b s).env = s.env := by cases ch <;> rfl
@[simp] theorem setUnderrun_ext (ch : Chan) (b : Bool) (s : State) : (setUnderrun ch b s).ext = s.ext := by cases ch <;> rfl
@[simp] theorem setUnderrun_trace (ch : Chan) (b : Bool) (s : State) : (setUnderrun ch b s).trace = s.trace := by cases ch <;> rfl
@[simp] theorem setUnderrun_readData (ch : Chan) (b : Bool) (s : State) : (setUnderrun ch b s).readData = s.readData := by cases ch <;> rfl

/-! ### `swapChan` -/

@[simp] theorem swapChan_params (ch : Chan) (s : State) : (swapChan ch s).params = s.params := by cases ch <;> rfl
@[simp] theorem swapChan_rx (ch : Chan) (s : State) : (swapChan ch s).rx = s.rx := by cases ch <;> rfl
@[simp] theorem swapChan_clkRunning (ch : Chan) (s : State) : (swapChan ch s).clkRunning = s.clkRunning := by cases ch <;> rfl
@[simp] theorem swapChan_stats (ch : Chan) (s : State) : (swapChan ch s).stats = s.stats := by cases ch <;> rfl
@[simp] theorem swapChan_readyOut (ch : Chan) (s : State) : (swapChan ch s).readyOut = s.readyOut := by cases ch <;> rfl
@[simp] theorem swapChan_env (ch : Chan) (s : State) : (swapChan ch s).env = s.env := by cases ch <;> rfl
@[simp] theorem swapChan_ext (ch : Chan) (s : State) : (swapChan ch s).ext = s.ext := by cases ch <;> rfl
@[simp] theorem swapChan_trace (ch : Chan) (s : State) : (swapChan ch s).trace = s.trace := by cases ch <;> rfl
@[simp] theorem swapChan_readData (ch : Chan) (s : State) : (swapChan ch s).readData = s.readData := by cases ch <;> rfl

/-! ### Reading a channel back -/

@[simp] theorem chan_ch0 (s : State) : s.chan .ch0 = s.c0 := rfl

@[simp] theorem chan_ch1 (s : State) : s.chan .ch1 = s.c1 := rfl

@[simp] theorem chan_setChan_same (ch : Chan) (c : Channel) (s : State) : (s.setChan ch c).chan ch = c := by
  cases ch <;> rfl

@[simp] theorem chan_setChan_other (ch : Chan) (c : Channel) (s : State) :
    (s.setChan ch c).chan ch.other = s.chan ch.other := by
  cases ch <;> rfl

theorem chan_setChan_of_ne {ch ch' : Chan} (h : ch' ≠ ch) (c : Channel) (s : State) :
    (s.setChan ch c).chan ch' = s.chan ch' := by
  cases ch <;> cases ch' <;> first | rfl | exact absurd rfl h

@[simp] theorem chan_emit (a : Action) (s : State) (ch : Chan) : (emit a s).chan ch = s.chan ch := by
  cases ch <;> rfl

@[simp] theorem chan_drawn (s : State) (ch : Chan) : s.drawn.chan ch = s.chan ch := by
  cases ch <;> rfl

@[simp] theorem chan_record (code : ErrorCode) (info : Option Nat) (s : State) (ch : Chan) :
    (record code info s).chan ch = s.chan ch := by
  cases ch <;> rfl

@[simp] theorem chan_endEvent (s : State) (ch : Chan) : s.endEvent.chan ch = s.chan ch := by
  cases ch <;> rfl

@[simp] theorem chan_setEngine (ch : Chan) (e : Engine) (s : State) (ch' : Chan) :
    (setEngine ch e s).chan ch' = s.chan ch' := by
  cases ch' <;> rfl

/-! ### Reading an engine back -/

@[simp] theorem engine_setEngine_same (ch : Chan) (e : Engine) (x : Collaborators) :
    (x.setEngine ch e).engine ch = e := by
  cases ch <;> rfl

@[simp] theorem engine_setEngine_other (ch : Chan) (e : Engine) (x : Collaborators) :
    (x.setEngine ch e).engine ch.other = x.engine ch.other := by
  cases ch <;> rfl

@[simp] theorem setEngine_setEngine (ch : Chan) (e e' : Engine) (x : Collaborators) :
    (x.setEngine ch e).setEngine ch e' = x.setEngine ch e' := by
  cases ch <;> rfl

@[simp] theorem clockPhase_setEngine (ch : Chan) (e : Engine) (x : Collaborators) :
    (x.setEngine ch e).clockPhase = x.clockPhase := by
  cases ch <;> rfl

/-! ### Channels through the other updates -/

@[simp] theorem chan_countCommand (s : State) (ch : Chan) : (countCommand s).chan ch = s.chan ch := by
  cases ch <;> rfl

@[simp] theorem chan_countData (s : State) (ch : Chan) : (countData s).chan ch = s.chan ch := by
  cases ch <;> rfl

@[simp] theorem chan_setOutState (ch : Chan) (o : OutState) (s : State) :
    (setOutState ch o s).chan ch = { s.chan ch with outState := o } := chan_setChan_same ch _ s

@[simp] theorem chan_setPlaying (ch : Chan) (b : Bool) (s : State) :
    (setPlaying ch b s).chan ch = { s.chan ch with isPlaying := b } := chan_setChan_same ch _ s

@[simp] theorem chan_setUnderrun (ch : Chan) (b : Bool) (s : State) :
    (setUnderrun ch b s).chan ch = { s.chan ch with underrun := b } := chan_setChan_same ch _ s

@[simp] theorem chan_swapChan (ch : Chan) (s : State) :
    (swapChan ch s).chan ch = (s.chan ch).swap.2 := chan_setChan_same ch _ s

/-! ### Draws depend on the environment's answers only -/

@[simp] theorem answer_emit (a : Action) (s : State) : (emit a s).answer = s.answer := rfl

@[simp] theorem answer_record (code : ErrorCode) (info : Option Nat) (s : State) :
    (record code info s).answer = s.answer := rfl

@[simp] theorem answer_countCommand (s : State) : (countCommand s).answer = s.answer := rfl

theorem answer_congr {s t : State} (h : t.env = s.env) : t.answer = s.answer := by
  unfold State.answer; rw [h]

/-- A draw takes an answer and touches nothing else of the environment. -/
@[simp] theorem afterDraw_pending (e : Env) : e.afterDraw.pending = e.pending := by
  unfold Env.afterDraw; split <;> rfl

/-! ### Buffers of a channel -/

@[simp] theorem buf_setBuf_same (c : Channel) (b : BufSel) (m : Slots) : (c.setBuf b m).buf b = m := by
  cases b <;> rfl

@[simp] theorem other_other (b : BufSel) : b.other.other = b := by cases b <;> rfl

theorem other_ne (b : BufSel) : b.other ≠ b := by cases b <;> decide

theorem buf_setBuf_of_ne {b b' : BufSel} (h : b' ≠ b) (c : Channel) (m : Slots) :
    (c.setBuf b m).buf b' = c.buf b' := by
  cases b <;> cases b' <;> first | rfl | exact absurd rfl h

end Sys2Proof.Machine
end

