-- ==== Sys2Proof/Laws/Ops.lean ====
section
/-! SUPPORT. For each shared operation, what it can do, said once: by the answer it draws where it draws one,
and which parts of the state it leaves alone. -/

namespace Sys2Proof.Machine

/-! ## Draws and polls -/

theorem answer_cases (s : State) : s.answer = .quiet ∨ s.answer = .adverse := by
  cases s.answer <;> simp

theorem rxPoll_quiet {s : State} (h : s.answer = .quiet) : rxPoll s = s.drawn := by
  simp [rxPoll, h]

theorem rxPoll_adverse {s : State} (h : s.answer = .adverse) :
    rxPoll s = record .rxPollTimeout none s.drawn := by
  simp [rxPoll, h]

/-- A bounded receive poll touches only the environment, one counter and the trace. -/
theorem rxPoll_spec (s : State) :
    rxPoll s = { s with
      env := s.env.afterDraw
      stats := if s.answer = .quiet then s.stats else s.stats.inc .transportFaults
      trace := if s.answer = .quiet then s.trace else s.trace ++ [.diag .rxPollTimeout none] } := by
  rcases answer_cases s with h | h
  · rw [rxPoll_quiet h]; simp [h, State.drawn]
  · rw [rxPoll_adverse h]; simp [h, record, emit, State.drawn, ErrorStats.count, ErrorCode.counter]

/-! ## OutputDriver -/

/-- out_start touches its own channel's `out_state` and engine, the environment and the trace. -/
theorem outStart_spec (ch : Chan) (s : State) :
    outStart ch s = State.setChan { s with
      env := s.env.afterDraw
      ext := s.ext.setEngine ch (if s.answer = .quiet then .started else (s.ext.engine ch).failed)
      trace := s.trace ++ [Action.outStart ch (s.chan ch).act Config.cap] ++
        (if s.answer = .quiet then [] else [.diag .startFail (some ch.toNat), .outFallback ch]) } ch
      { s.chan ch with outState := if s.answer = .quiet then .running else .fallback } := by
  simp only [outStart, answer_emit]
  rcases answer_cases s with h | h <;> simp only [h] <;> cases ch <;>
    simp [setOutState, setEngine, State.setChan, State.chan, emit, record, State.drawn, ErrorStats.count,
      ErrorCode.counter]

/-- out_disable touches its own channel's `out_state` and engine, one counter, the environment and the trace. -/
theorem outDisable_spec (ch : Chan) (s : State) :
    outDisable ch s = State.setChan { s with
      env := s.env.afterDraw
      ext := s.ext.setEngine ch ((s.ext.engine ch).disabled s.answer)
      stats := if s.answer = .quiet then s.stats else s.stats.inc .transportFaults
      trace := s.trace ++ [Action.outDisable ch] ++
        (if s.answer = .quiet then [] else [.diag .outPollTimeout (some ch.toNat)]) } ch
      { s.chan ch with outState := .off } := by
  simp only [outDisable, answer_emit]
  rcases answer_cases s with h | h <;> simp only [h] <;> cases ch <;>
    simp [setOutState, setEngine, State.setChan, State.chan, emit, record, State.drawn, ErrorStats.count,
      ErrorCode.counter]

@[simp] theorem chan_outStart_same (ch : Chan) (s : State) :
    (outStart ch s).chan ch = { s.chan ch with outState := if s.answer = .quiet then .running else .fallback } := by
  rw [outStart_spec]; simp

@[simp] theorem chan_outStart_other (ch : Chan) (s : State) : (outStart ch s).chan ch.other = s.chan ch.other := by
  rw [outStart_spec]; cases ch <;> rfl

@[simp] theorem chan_outDisable_same (ch : Chan) (s : State) :
    (outDisable ch s).chan ch = { s.chan ch with outState := .off } := by
  rw [outDisable_spec]; simp

@[simp] theorem chan_outDisable_other (ch : Chan) (s : State) :
    (outDisable ch s).chan ch.other = s.chan ch.other := by
  rw [outDisable_spec]; cases ch <;> rfl

@[simp] theorem rx_outStart (ch : Chan) (s : State) : (outStart ch s).rx = s.rx := by
  rw [outStart_spec]; simp

@[simp] theorem params_outStart (ch : Chan) (s : State) : (outStart ch s).params = s.params := by
  rw [outStart_spec]; simp

@[simp] theorem ext_outStart (ch : Chan) (s : State) : (outStart ch s).ext =
    s.ext.setEngine ch (if s.answer = .quiet then .started else (s.ext.engine ch).failed) := by
  rw [outStart_spec]; simp

@[simp] theorem params_outDisable (ch : Chan) (s : State) : (outDisable ch s).params = s.params := by
  rw [outDisable_spec]; simp

@[simp] theorem ext_outDisable (ch : Chan) (s : State) :
    (outDisable ch s).ext = s.ext.setEngine ch ((s.ext.engine ch).disabled s.answer) := by
  rw [outDisable_spec]; simp

@[simp] theorem stats_outStart (ch : Chan) (s : State) : (outStart ch s).stats = s.stats := by
  rw [outStart_spec]; simp

@[simp] theorem clkRunning_outStart (ch : Chan) (s : State) : (outStart ch s).clkRunning = s.clkRunning := by
  rw [outStart_spec]; simp

@[simp] theorem rx_outDisable (ch : Chan) (s : State) : (outDisable ch s).rx = s.rx := by
  rw [outDisable_spec]; simp

@[simp] theorem clkRunning_outDisable (ch : Chan) (s : State) : (outDisable ch s).clkRunning = s.clkRunning := by
  rw [outDisable_spec]; simp

/-- clock_ensure leaves the clock running, and acts only where it was not: then the environment has not said yet
when the clock ticks. -/
theorem clockEnsure_spec (s : State) :
    clockEnsure s = { s with
      clkRunning := true
      ext := { s.ext with clockPhase := if s.clkRunning then s.ext.clockPhase else none }
      trace := s.trace ++ if s.clkRunning then [] else [.clkStart] } := by
  unfold clockEnsure
  by_cases h : s.clkRunning = true
  · cases s; simp_all
  · simp [h, emit]

@[simp] theorem chan_clockEnsure (s : State) (ch : Chan) : (clockEnsure s).chan ch = s.chan ch := by
  rw [clockEnsure_spec]; cases ch <;> rfl

@[simp] theorem clkRunning_clockEnsure (s : State) : (clockEnsure s).clkRunning = true := by
  rw [clockEnsure_spec]

@[simp] theorem rx_clockEnsure (s : State) : (clockEnsure s).rx = s.rx := by rw [clockEnsure_spec]

@[simp] theorem stats_clockEnsure (s : State) : (clockEnsure s).stats = s.stats := by rw [clockEnsure_spec]

@[simp] theorem params_clockEnsure (s : State) : (clockEnsure s).params = s.params := by rw [clockEnsure_spec]

@[simp] theorem engine_clockEnsure (s : State) (ch : Chan) : (clockEnsure s).ext.engine ch = s.ext.engine ch := by
  rw [clockEnsure_spec]; cases ch <;> rfl

@[simp] theorem env_clockEnsure (s : State) : (clockEnsure s).env = s.env := by rw [clockEnsure_spec]

/-- clock_release stops a running clock exactly when no channel plays. -/
theorem clockRelease_spec (s : State) :
    clockRelease s = { s with
      clkRunning := s.clkRunning && (s.c0.isPlaying || s.c1.isPlaying)
      trace := s.trace ++ if !s.c0.isPlaying && (!s.c1.isPlaying && s.clkRunning) then [.clkStop] else [] } := by
  unfold clockRelease
  cases h0 : s.c0.isPlaying <;> cases h1 : s.c1.isPlaying <;> cases hc : s.clkRunning <;>
    simp [emit] <;> (cases s; simp_all)

@[simp] theorem chan_clockRelease (s : State) (ch : Chan) : (clockRelease s).chan ch = s.chan ch := by
  rw [clockRelease_spec]; cases ch <;> rfl

@[simp] theorem rx_clockRelease (s : State) : (clockRelease s).rx = s.rx := by rw [clockRelease_spec]

@[simp] theorem stats_clockRelease (s : State) : (clockRelease s).stats = s.stats := by rw [clockRelease_spec]

@[simp] theorem params_clockRelease (s : State) : (clockRelease s).params = s.params := by rw [clockRelease_spec]

@[simp] theorem ext_clockRelease (s : State) : (clockRelease s).ext = s.ext := by rw [clockRelease_spec]

@[simp] theorem env_clockRelease (s : State) : (clockRelease s).env = s.env := by rw [clockRelease_spec]

/-- stop_channel by its one draw (R310). -/
theorem chan_stopChannel_same (ch : Chan) (s : State) :
    (stopChannel ch s).chan ch = { s.chan ch with outState := .off, isPlaying := false } := by
  simp [stopChannel]

theorem chan_stopChannel_other (ch : Chan) (s : State) :
    (stopChannel ch s).chan ch.other = s.chan ch.other := by
  simp only [stopChannel, chan_clockRelease, setPlaying, chan_setChan_other, chan_outDisable_other]

@[simp] theorem params_stopChannel (ch : Chan) (s : State) : (stopChannel ch s).params = s.params := by
  simp [stopChannel]

@[simp] theorem ext_stopChannel (ch : Chan) (s : State) :
    (stopChannel ch s).ext = s.ext.setEngine ch ((s.ext.engine ch).disabled s.answer) := by
  simp [stopChannel]

@[simp] theorem rx_stopChannel (ch : Chan) (s : State) : (stopChannel ch s).rx = s.rx := by
  simp [stopChannel]

theorem clkRunning_stopChannel (ch : Chan) (s : State) :
    (stopChannel ch s).clkRunning = (s.clkRunning && (s.chan ch.other).isPlaying) := by
  unfold stopChannel
  rw [clockRelease_spec]
  cases ch
  · have h0 := chan_outDisable_other .ch0 s
    simp only [Chan.other, chan_ch1] at h0
    simp [setPlaying, State.setChan, Chan.other, h0]
  · have h0 := chan_outDisable_other .ch1 s
    simp only [Chan.other, chan_ch0] at h0
    simp [setPlaying, State.setChan, Chan.other, h0]

/-! ## AudioChannel -/

/-- swap changes nothing unless the fill buffer is exactly full (R154). -/
theorem swap_spec (c : Channel) :
    c.swap = if c.fillIndex = Config.cap
      then (true, { c with act := c.act.other, fillIndex := 0, swaps := c.swaps + 1 }) else (false, c) := by
  unfold Channel.swap; split <;> simp_all

/-- The code that fill stores is at most MAX_CODE: scale clamps (R152). -/
theorem sampleCode_le (ob vol : Nat) (x : Half) : sampleCode ob vol x ≤ Config.maxCodeOf ob := by
  unfold sampleCode scaleAt clamp
  rw [Int.toNat_le]
  exact min_le_right _ _

/-- One stored sample: its slot, the index, and nothing else (R153). -/
theorem store_spec (ob : Nat) (c : Channel) (x : Half) :
    c.store ob x = { c.setBuf c.act.other
        ((c.buf c.act.other).write ob c.fillIndex (sampleCode ob c.volume x)) with
      fillIndex := c.fillIndex + 1 } := rfl

@[simp] theorem store_act (ob : Nat) (c : Channel) (x : Half) : (c.store ob x).act = c.act := by
  cases h : c.act <;> simp [store_spec, Channel.setBuf, h, BufSel.other]

@[simp] theorem store_volume (ob : Nat) (c : Channel) (x : Half) : (c.store ob x).volume = c.volume := by
  cases h : c.act <;> simp [store_spec, Channel.setBuf, h, BufSel.other]

@[simp] theorem store_fillIndex (ob : Nat) (c : Channel) (x : Half) :
    (c.store ob x).fillIndex = c.fillIndex + 1 := rfl

@[simp] theorem store_buf_active (ob : Nat) (c : Channel) (x : Half) :
    (c.store ob x).buf c.act = c.buf c.act := by
  obtain ⟨b0, b1, act, fi, pl, un, vol, ts, sw, us, os⟩ := c
  cases act <;> rfl

@[simp] theorem store_buf_fill (ob : Nat) (c : Channel) (x : Half) :
    (c.store ob x).buf c.act.other =
      (c.buf c.act.other).write ob c.fillIndex (sampleCode ob c.volume x) := by
  obtain ⟨b0, b1, act, fi, pl, un, vol, ts, sw, us, os⟩ := c
  cases act <;> rfl

/-- What one stored sample leaves alone. -/
theorem store_frame (ob : Nat) (c : Channel) (x : Half) :
    c.store ob x =
      { c with buf0 := (c.store ob x).buf0, buf1 := (c.store ob x).buf1, fillIndex := c.fillIndex + 1 } := by
  obtain ⟨b0, b1, act, fi, pl, un, vol, ts, sw, us, os⟩ := c
  cases act <;> rfl

/-- The fill loop, said once (R153, R158): how many samples it stores, where, and what it leaves alone. -/
theorem fillLoop_spec (ob : Nat) : ∀ (xs : List Half) (c : Channel), (c.buf c.act.other).wf ob = true →
    c.fillIndex ≤ Config.cap →
    let r := Channel.fillLoop ob xs c
    r.1 = min xs.length (Config.cap - c.fillIndex) ∧
    r.2.fillIndex = c.fillIndex + r.1 ∧
    r.2 = { c with buf0 := r.2.buf0, buf1 := r.2.buf1, fillIndex := r.2.fillIndex } ∧
    r.2.buf c.act = c.buf c.act ∧
    (r.2.buf c.act.other).wf ob = true ∧
    (∀ j, j < r.1 →
      (r.2.buf c.act.other).read ob (c.fillIndex + j) = sampleCode ob c.volume (xs.getD j 0)) ∧
    (∀ k, k < c.fillIndex ∨ c.fillIndex + r.1 ≤ k →
      (r.2.buf c.act.other).read ob k = (c.buf c.act.other).read ob k)
  | [], c, hw, _ => by simp [Channel.fillLoop, hw]
  | x :: xs, c, hw, hle => by
    by_cases hfull : Config.cap ≤ c.fillIndex
    · simp [Channel.fillLoop, if_pos hfull, hw, Nat.sub_eq_zero_of_le hfull]
    · have hlt : c.fillIndex < Config.cap := by omega
      have hw' : ((c.store ob x).buf (c.store ob x).act.other).wf ob = true := by
        rw [store_act, store_buf_fill]; exact Slots.wf_write hw hlt (sampleCode_le ob _ x)
      obtain ⟨h1, h2, h3, h4, h5, h6, h7⟩ :=
        fillLoop_spec ob xs (c.store ob x) hw' (by rw [store_fillIndex]; omega)
      simp only [store_act, store_fillIndex, store_volume, store_buf_active, store_buf_fill] at h1 h2 h3 h4 h5 h6 h7
      simp only [Channel.fillLoop, if_neg hfull]
      refine ⟨?_, ?_, ?_, h4, h5, ?_, ?_⟩
      · rw [h1, List.length_cons]; omega
      · rw [h2]; omega
      · rw [h3, store_frame ob c x]
      · intro j hj
        cases j with
        | zero =>
          rw [h7 (c.fillIndex + 0) (Or.inl (by omega))]
          exact Slots.read_write_same hw _ _
        | succ j =>
          have := h6 j (by omega)
          rw [show c.fillIndex + (j + 1) = c.fillIndex + 1 + j by omega, this]
          rfl
      · intro k hk
        rw [h7 k (by omega)]
        exact Slots.read_write_other (by omega) _ _ _

/-! ## The receiver -/

/-- What SEL_DEASSERT does to a capture before parsing, by its draw (R196). -/
theorem closeCapture_unarmed {s : State} (h : s.rx.armed = false) :
    closeCapture s = { s with
      rx := { s.rx with armed := false, state := .idle }
      stats := { s.stats with lastCaptured := BitVec.ofNat 32 s.rx.count } } := by
  simp [closeCapture, terminate, h]

theorem closeCapture_armed {s : State} (h : s.rx.armed = true) :
    closeCapture s = { s with
      rx := { s.rx with armed := false, state := .idle }
      env := s.env.afterDraw
      stats := { (if s.answer = .quiet then s.stats else s.stats.inc .transportFaults) with
        lastCaptured := BitVec.ofNat 32 s.rx.count }
      trace := s.trace ++ [.rxTerminate] ++
        if s.answer = .quiet then [] else [.diag .rxPollTimeout none] } := by
  simp only [closeCapture, terminate, h, if_true, rxPoll_spec, answer_emit]
  rcases answer_cases s with ha | ha <;> simp [ha, emit]

@[simp] theorem chan_closeCapture (s : State) (ch : Chan) : (closeCapture s).chan ch = s.chan ch := by
  cases h : s.rx.armed
  · rw [closeCapture_unarmed h]; cases ch <;> rfl
  · rw [closeCapture_armed h]; cases ch <;> rfl

@[simp] theorem clkRunning_closeCapture (s : State) : (closeCapture s).clkRunning = s.clkRunning := by
  cases h : s.rx.armed
  · rw [closeCapture_unarmed h]
  · rw [closeCapture_armed h]

@[simp] theorem params_closeCapture (s : State) : (closeCapture s).params = s.params := by
  cases h : s.rx.armed
  · rw [closeCapture_unarmed h]
  · rw [closeCapture_armed h]

@[simp] theorem ext_closeCapture (s : State) : (closeCapture s).ext = s.ext := by
  cases h : s.rx.armed
  · rw [closeCapture_unarmed h]
  · rw [closeCapture_armed h]

@[simp] theorem rx_closeCapture (s : State) :
    (closeCapture s).rx = { s.rx with armed := false, state := .idle } := by
  cases h : s.rx.armed
  · rw [closeCapture_unarmed h]
  · rw [closeCapture_armed h]

/-- The arming attempt of SEL_ASSERT touches the environment, the transport-fault counter and the trace. -/
theorem armEngine_spec (s : State) :
    armEngine s =
      if s.answer = .quiet then (true, s.drawn)
      else if s.drawn.answer = .quiet then
        (true, { s with
          env := s.env.afterDraw.afterDraw
          stats := s.stats.inc .transportFaults
          trace := s.trace ++ [.diag .rxNotReady none, .rxForceReset] })
      else
        (false, { s with
          env := s.env.afterDraw.afterDraw
          stats := (s.stats.inc .transportFaults).inc .transportFaults
          trace := s.trace ++ [.diag .rxNotReady none, .rxForceReset, .diag .rxPollTimeout none] }) := by
  unfold armEngine
  rcases answer_cases s with h | h
  · simp [h]
  · simp only [h, rxPoll_spec, answer_emit, answer_record]
    rcases answer_cases s.drawn with h' | h' <;> simp only [h'] <;>
      simp [emit, record, State.drawn, ErrorStats.count, ErrorCode.counter]

/-! ## The window's map -/

theorem chanReg_ne_ctrl (ch : Chan) (off : Nat) : chanReg ch off ≠ .ctrl := by
  unfold chanReg
  split_ifs <;> simp

/-- CTRL stands at one offset (R58). -/
theorem windowReg_ctrl (off : Nat) : windowReg off = .ctrl ↔ off = 0x60 := by
  constructor
  · intro h
    by_contra hne
    unfold windowReg at h
    split_ifs at h
    all_goals exact chanReg_ne_ctrl _ _ h
  · rintro rfl; rfl

end Sys2Proof.Machine
end

