-- ==== Sys2Proof/Laws/Exec.lean ====
section
/-! SUPPORT. Lemmas about whole operations and steps: the Dispatcher and exec agree on frames, the status words
never show the reserved OUT_STATE, and what taking an event can do. -/

namespace Sys2Proof.Machine

/-- Inside SEL_DEASSERT a frame runs as its operation does. -/
theorem dispatchFrame_eq_exec {i : Instr} (h : i.isEvent = false) (s : State) : dispatchFrame i s = exec i s := by
  cases i <;> first | rfl | simp [Instr.isEvent] at h

/-- SEL_DEASSERT in CAPTURING and armed, by what the span decodes to (R196). -/
theorem execSelDeassert_ok {s : State} {i : Instr} (hs : s.rx.state = .capturing) (ha : s.rx.armed = true)
    (hd : decode s.captured = .ok i) : exec .selDeassert s = exec i (closeCapture s) := by
  simp only [exec, execSelDeassert, hs, ha, hd, if_true]
  exact dispatchFrame_eq_exec (decode_isFrame hd) _

theorem execSelDeassert_error {s : State} {r : Reject} (hs : s.rx.state = .capturing) (ha : s.rx.armed = true)
    (hd : decode s.captured = .error r) :
    exec .selDeassert s = .next (raiseReject r (closeCapture s)).endEvent := by
  simp [exec, execSelDeassert, hs, ha, hd]

/-! ## Status words -/

theorem bitAt_getLsbD (k : Nat) (b : Bool) (j : Nat) (hk : k < 32) :
    (bitAt k b).getLsbD j = (decide (j = k) && b) := by
  unfold bitAt
  cases b
  · simp
  · simp only [if_true, Bool.and_true, BitVec.getLsbD_ofNat, Nat.testBit_two_pow]
    by_cases h : j = k
    · subst h; simp [hk]
    · simp [h, Ne.symm h]

theorem outStateField_getLsbD (o : OutState) (j : Nat) :
    (BitVec.ofNat 32 (o.code <<< 4)).getLsbD j =
      match o with
      | .off => false
      | .running => decide (j = 4)
      | .fallback => decide (j = 5) := by
  have h : ∀ k, k < 32 → (BitVec.ofNat 32 (2 ^ k)).getLsbD j = decide (j = k) := by
    intro k hk
    have := bitAt_getLsbD k true j hk
    simpa [bitAt] using this
  cases o
  · simp [OutState.code]
  · exact h 4 (by decide)
  · exact h 5 (by decide)

/-- CH_STATUS bit by bit (R60). -/
theorem chStatusWord_getLsbD (c : Channel) (j : Nat) :
    (chStatusWord c).getLsbD j =
      ((decide (j = 0) && c.isPlaying) || (decide (j = 1) && c.underrun) || (decide (j = 2) && c.prebufReady) ||
        (decide (j = 3) && c.act.toBool) ||
        (match c.outState with | .off => false | .running => decide (j = 4) | .fallback => decide (j = 5))) := by
  simp only [chStatusWord, BitVec.getLsbD_or, bitAt_getLsbD _ _ _ (by decide : 0 < 32),
    bitAt_getLsbD _ _ _ (by decide : 1 < 32), bitAt_getLsbD _ _ _ (by decide : 2 < 32),
    bitAt_getLsbD _ _ _ (by decide : 3 < 32), outStateField_getLsbD]

/-- STATUS bit by bit (R59). -/
theorem statusWord_getLsbD (s : State) (j : Nat) :
    (statusWord s).getLsbD j =
      ((decide (j = 0) && s.readyOut) || (decide (j = 1) && decide (s.rx.state = .capturing)) ||
        (decide (j = 2) && s.rx.armed) || (decide (j = 3) && s.clkRunning)) := by
  simp only [statusWord, BitVec.getLsbD_or, bitAt_getLsbD _ _ _ (by decide : 0 < 32),
    bitAt_getLsbD _ _ _ (by decide : 1 < 32), bitAt_getLsbD _ _ _ (by decide : 2 < 32),
    bitAt_getLsbD _ _ _ (by decide : 3 < 32)]

/-- The OUT_STATE field of a CH_STATUS word (R60). -/
theorem chStatusWord_outState (c : Channel) :
    (chStatusWord c).extractLsb' 4 2 = (match c.outState with | .off => 0 | .running => 1 | .fallback => 2) := by
  apply BitVec.eq_of_getLsbD_eq
  intro j hj
  simp only [BitVec.getLsbD_extractLsb', chStatusWord_getLsbD]
  have : j = 0 ∨ j = 1 := by omega
  rcases this with rfl | rfl <;> cases c.outState <;> simp

/-- U22: the value 3 is never found, so a status read never faults. -/
theorem outStateReservedIn_windowWord (s : State) (r : WindowReg) :
    outStateReservedIn r (windowWord s r) = false := by
  cases r with
  | chan ch r =>
    cases r <;> simp only [outStateReservedIn, windowWord, chanWord, chStatusWord_outState]
    cases (s.chan ch).outState <;> decide
  | _ => rfl

/-! ## Taking an event -/

/-- Every eligible position holds an event, and no earlier event of the wire stands before one of the wire. -/
theorem eligible_spec : ∀ (is : List Instr) (seen : Bool) (n k : Nat),
    k ∈ eligible seen n is ↔ ∃ j i, k = n + j ∧ is[j]? = some i ∧
      (i.isWire = true → seen = false ∧ ∀ m e, m < j → is[m]? = some e → e.isWire = false)
  | [], seen, n, k => by simp [eligible]
  | i :: is, seen, n, k => by
    have ih := eligible_spec is
    have shift : ∀ b, (∃ j i', k = n + 1 + j ∧ is[j]? = some i' ∧
        (i'.isWire = true → (b = false) ∧ ∀ m e, m < j → is[m]? = some e → e.isWire = false)) →
        (∀ i' : Instr, i'.isWire = true → b = false → seen = false ∧ i.isWire = false) →
        ∃ j i', k = n + j ∧ (i :: is)[j]? = some i' ∧
          (i'.isWire = true → seen = false ∧ ∀ m e, m < j → (i :: is)[m]? = some e → e.isWire = false) := by
      rintro b ⟨j, i', rfl, hj, hw⟩ hb
      refine ⟨j + 1, i', by omega, by simpa using hj, fun h => ?_⟩
      obtain ⟨h1, h2⟩ := hw h
      obtain ⟨h3, h4⟩ := hb i' h h1
      refine ⟨h3, fun m e hm he => ?_⟩
      cases m with
      | zero => simp at he; subst he; exact h4
      | succ m => exact h2 m e (by omega) (by simpa using he)
    have unshift : ∀ b, (∃ j i', k = n + j ∧ (i :: is)[j]? = some i' ∧
          (i'.isWire = true → seen = false ∧ ∀ m e, m < j → (i :: is)[m]? = some e → e.isWire = false)) →
        (seen = false → i.isWire = false → b = false) →
        k = n ∧ (i.isWire = true → seen = false) ∨ ∃ j i', k = n + 1 + j ∧ is[j]? = some i' ∧
        (i'.isWire = true → (b = false) ∧ ∀ m e, m < j → is[m]? = some e → e.isWire = false) := by
      rintro b ⟨j, i', rfl, hj, hw⟩ hb
      cases j with
      | zero =>
        simp at hj; subst hj
        exact Or.inl ⟨rfl, fun h => (hw h).1⟩
      | succ j =>
        refine Or.inr ⟨j, i', by omega, by simpa using hj, fun h => ?_⟩
        obtain ⟨h1, h2⟩ := hw h
        exact ⟨hb h1 (h2 0 i (by omega) rfl), fun m e hm he => h2 (m + 1) e (by omega) (by simpa using he)⟩
    have here : (i.isWire = true → seen = false) → ∃ j i', n = n + j ∧ (i :: is)[j]? = some i' ∧
          (i'.isWire = true → seen = false ∧ ∀ m e, m < j → (i :: is)[m]? = some e → e.isWire = false) :=
      fun h => ⟨0, i, rfl, rfl, fun hi => ⟨h hi, fun m e hm _ => by omega⟩⟩
    rw [eligible]
    cases hi : i.isWire
    · rw [if_neg Bool.false_ne_true, List.mem_cons, ih]
      constructor
      · rintro (rfl | h)
        · exact here (by simp [hi])
        · exact shift seen h (fun _ _ hb => ⟨hb, hi⟩)
      · intro h
        rcases unshift seen h (fun hs _ => hs) with ⟨h, _⟩ | h
        · exact Or.inl h
        · exact Or.inr h
    · cases hseen : seen
      · rw [if_pos rfl, if_neg Bool.false_ne_true, List.mem_cons, ih]
        subst hseen
        constructor
        · rintro (rfl | h)
          · exact here (by simp)
          · exact shift true h (fun _ _ hb => by simp at hb)
        · intro h
          rcases unshift true h (fun _ h' => by simp [hi] at h') with ⟨h, _⟩ | h
          · exact Or.inl h
          · exact Or.inr h
      · rw [if_pos rfl, if_pos rfl, ih]
        subst hseen
        constructor
        · intro h; exact shift true h (fun _ _ hb => by simp at hb)
        · intro h
          rcases unshift true h (fun _ h' => by simp [hi] at h') with ⟨_, h⟩ | h
          · exact absurd (h hi) (by simp)
          · exact h

/-- What choosing a position can do: an eligible one, and only the choices change. -/
theorem pick_spec {e e' : Env} {k : Nat} (h : e.pick = some (k, e')) :
    k ∈ eligible false 0 e.pending ∧ e'.pending = e.pending ∧ e'.answers = e.answers ∧
      e'.answerCount = e.answerCount := by
  have hc : ∀ e : Env, e.afterChoice.pending = e.pending ∧ e.afterChoice.answers = e.answers ∧
      e.afterChoice.answerCount = e.answerCount := by
    intro e; unfold Env.afterChoice; split <;> exact ⟨rfl, rfl, rfl⟩
  unfold Env.pick at h
  split at h
  · cases h
  · rename_i k' hk
    obtain ⟨rfl, rfl⟩ := Prod.mk.inj (Option.some.inj h)
    exact ⟨by simp [hk], rfl, rfl, rfl⟩
  · rename_i a b ks hk
    obtain ⟨rfl, rfl⟩ := Prod.mk.inj (Option.some.inj h)
    refine ⟨?_, hc e⟩
    rw [hk]
    have hlt : e.choice % (ks.length + 2) < (a :: b :: ks).length := by
      simp only [List.length_cons]; exact Nat.mod_lt _ (by omega)
    rw [List.getD_eq_getElem _ _ hlt]
    exact List.getElem_mem hlt

/-- What taking an event can do (R411, R412). -/
theorem takeEvent_spec {s t : State} {i : Instr} (h : takeEvent s = some (i, t)) :
    ∃ k, k ∈ eligible false 0 s.env.pending ∧ s.env.pending[k]? = some i ∧
      t = { s with env := t.env } ∧ t.env.pending = s.env.pending.eraseIdx k ∧
      t.env.answers = s.env.answers ∧ t.env.answerCount = s.env.answerCount := by
  unfold takeEvent at h
  split at h
  · cases h
  · rename_i k e hp
    obtain ⟨h1, h2, h3, h4⟩ := pick_spec hp
    split at h
    · cases h
    · rename_i i' hi
      obtain ⟨rfl, rfl⟩ := Prod.mk.inj (Option.some.inj h)
      rw [h2] at hi
      exact ⟨k, h1, hi, rfl, by rw [h2], h3, h4⟩

end Sys2Proof.Machine
end

