-- ==== Sys2Proof/Laws/Channel.lean ====
section
/-! SUPPORT. What an operation can do to a channel, said once for all fourteen operations, and what it can do to
the clock and the receiver; every invariant is derived from these. -/

namespace Sys2Proof.Machine

/-! ## Small facts of the frame operations -/

theorem playTeardown_chan_same (ch : Chan) (s : State) :
    (playTeardown ch s).chan ch =
      { s.chan ch with outState := if (s.chan ch).isPlaying then .off else (s.chan ch).outState } := by
  unfold playTeardown
  split
  · exact chan_outDisable_same ch s
  · rfl

theorem playTeardown_chan_other (ch : Chan) (s : State) :
    (playTeardown ch s).chan ch.other = s.chan ch.other := by
  unfold playTeardown
  split <;> simp

theorem stopIfPlaying_chan_same (ch : Chan) (s : State) :
    (stopIfPlaying ch s).chan ch =
      if (s.chan ch).isPlaying then { s.chan ch with outState := .off, isPlaying := false } else s.chan ch := by
  unfold stopIfPlaying
  split
  · exact chan_stopChannel_same ch s
  · rfl

theorem stopIfPlaying_chan_other (ch : Chan) (s : State) :
    (stopIfPlaying ch s).chan ch.other = s.chan ch.other := by
  unfold stopIfPlaying
  split
  · exact chan_stopChannel_other ch s
  · rfl

@[simp] theorem playTeardown_rx (ch : Chan) (s : State) : (playTeardown ch s).rx = s.rx := by
  unfold playTeardown; split <;> simp

@[simp] theorem stopIfPlaying_rx (ch : Chan) (s : State) : (stopIfPlaying ch s).rx = s.rx := by
  unfold stopIfPlaying; split <;> simp

theorem stopIfPlaying_clk (ch : Chan) (s : State) :
    (stopIfPlaying ch s).clkRunning =
      if (s.chan ch).isPlaying then s.clkRunning && (s.chan ch.other).isPlaying else s.clkRunning := by
  unfold stopIfPlaying
  split
  · exact clkRunning_stopChannel ch s
  · rfl

@[simp] theorem fillLoop_isPlaying (ob : Nat) : ∀ (xs : List Half) (c : Channel),
    (Channel.fillLoop ob xs c).2.isPlaying = c.isPlaying
  | [], _ => rfl
  | x :: xs, c => by
    unfold Channel.fillLoop
    split
    · rfl
    · rw [fillLoop_isPlaying ob xs]; rw [store_frame]

theorem fill_isPlaying (ob : Nat) (c : Channel) (xs : List Half) : (c.fill ob xs).2.isPlaying = c.isPlaying :=
  fillLoop_isPlaying ob xs c

/-- PLAY's channel after the operation (R262). -/
def Channel.played (c : Channel) (o : OutState) : Channel :=
  { c.swap.2 with isPlaying := true, underrun := false, outState := o }

/-- The channel after the swap path of DRAIN_COMPLETE (R306). -/
def Channel.drained (c : Channel) (o : OutState) : Channel :=
  { c.swap.2 with underrun := false, outState := o }

theorem swap_outState (c : Channel) (o : OutState) :
    (Channel.swap { c with outState := o }).2 = { c.swap.2 with outState := o } := by
  simp only [swap_spec]; split <;> rfl

/-- A started engine is never left OFF (R301). -/
theorem outStart_exists (ch : Chan) (s : State) :
    ∃ o, o ≠ .off ∧ (outStart ch s).chan ch = { s.chan ch with outState := o } :=
  ⟨_, by split <;> decide, chan_outStart_same ch s⟩

/-- What the frame operations can do to channel `ch` at an output resolution of `ob` bits; `runs j` says that the
operation `j` is applied. -/
def FrameEffect (ob : Nat) (runs : Instr → Prop) (ch : Chan) (c c' : Channel) : Prop :=
  c' = c ∨
  (∃ p o, runs (.play ch p) ∧ o ≠ .off ∧ c' = c.played o) ∨
  (∃ p, runs (.stop ch p) ∧ c.isPlaying = true ∧ c' = { c with outState := .off, isPlaying := false }) ∨
  (∃ p, runs (.volume ch p) ∧ c' = { c with volume := min p.toNat Config.volMax }) ∨
  (∃ p, runs (.reset ch p) ∧ c' = Channel.clear (if c.isPlaying then { c with outState := .off } else c)) ∨
  (∃ xs, runs (.data ch xs) ∧ c' = (c.fill ob xs).2)

theorem FrameEffect.mono {ob : Nat} {r r' : Instr → Prop} {ch : Chan} {c c' : Channel} (h : ∀ j, r j → r' j)
    (e : FrameEffect ob r ch c c') : FrameEffect ob r' ch c c' := by
  rcases e with e | ⟨p, o, hr, e⟩ | ⟨p, hr, e⟩ | ⟨p, hr, e⟩ | ⟨p, hr, e⟩ | ⟨xs, hr, e⟩
  · exact Or.inl e
  · exact Or.inr (Or.inl ⟨p, o, h _ hr, e⟩)
  · exact Or.inr (Or.inr (Or.inl ⟨p, h _ hr, e⟩))
  · exact Or.inr (Or.inr (Or.inr (Or.inl ⟨p, h _ hr, e⟩)))
  · exact Or.inr (Or.inr (Or.inr (Or.inr (Or.inl ⟨p, h _ hr, e⟩))))
  · exact Or.inr (Or.inr (Or.inr (Or.inr (Or.inr ⟨xs, h _ hr, e⟩))))

/-- A channel's effect of one frame operation. -/
theorem frame_chan {i : Instr} {s t : State} (hi : i.isEvent = false) (h : exec i s = .next t) (ch : Chan) :
    FrameEffect s.params.outBits (fun j => i = j) ch (s.chan ch) (t.chan ch) := by
  cases i <;> simp only [Instr.isEvent, Bool.true_eq_false] at hi
  case play c p =>
    by_cases hc : ch = c
    · subst hc
      cases h
      simp only [chan_endEvent]
      obtain ⟨o, ho, e⟩ := outStart_exists ch
        (clockEnsure (setUnderrun ch false (setPlaying ch true (swapChan ch (playTeardown ch (countCommand s))))))
      refine Or.inr (Or.inl ⟨p, o, rfl, ho, ?_⟩)
      rw [e]
      simp only [chan_clockEnsure, chan_setUnderrun, chan_setPlaying, chan_swapChan, playTeardown_chan_same,
        chan_countCommand, swap_outState]
      rfl
    · left
      obtain rfl : ch = c.other := by cases ch <;> cases c <;> first | rfl | exact absurd rfl hc
      cases h
      simp only [chan_endEvent, chan_outStart_other, chan_clockEnsure, setUnderrun, setPlaying, swapChan,
        chan_setChan_other, playTeardown_chan_other, chan_countCommand]
  case stop c p =>
    by_cases hc : ch = c
    · subst hc
      cases h
      simp only [chan_endEvent, stopIfPlaying_chan_same, chan_countCommand]
      cases hp : (s.chan ch).isPlaying
      · exact Or.inl rfl
      · exact Or.inr (Or.inr (Or.inl ⟨p, rfl, hp, rfl⟩))
    · left
      obtain rfl : ch = c.other := by cases ch <;> cases c <;> first | rfl | exact absurd rfl hc
      cases h
      simp only [chan_endEvent, stopIfPlaying_chan_other, chan_countCommand]
  case volume c p =>
    by_cases hc : ch = c
    · subst hc
      cases h
      exact Or.inr (Or.inr (Or.inr (Or.inl ⟨p, rfl, by simp⟩)))
    · left
      cases h
      simp only [chan_endEvent, chan_setChan_of_ne hc, chan_countCommand]
  case reset c p =>
    by_cases hc : ch = c
    · subst hc
      cases h
      refine Or.inr (Or.inr (Or.inr (Or.inr (Or.inl ⟨p, rfl, ?_⟩))))
      simp only [chan_endEvent, chan_setChan_same, stopIfPlaying_chan_same, chan_countCommand]
      split <;> rfl
    · left
      obtain rfl : ch = c.other := by cases ch <;> cases c <;> first | rfl | exact absurd rfl hc
      cases h
      simp only [chan_endEvent, chan_setChan_other, stopIfPlaying_chan_other, chan_countCommand]
  case data c xs =>
    simp only [exec, execData] at h
    split at h
    · left; cases h; simp [raiseReject]
    · by_cases hc : ch = c
      · subst hc
        cases h
        exact Or.inr (Or.inr (Or.inr (Or.inr (Or.inr ⟨xs, rfl, by simp⟩))))
      · left
        cases h
        simp only [chan_endEvent, chan_setChan_of_ne hc, chan_countData]

/-- Everything an operation can do to a channel (R262 to R267, R306, R307, R361, R450). -/
theorem exec_chan_cases {i : Instr} {s t : State} (h : exec i s = .next t) (ch : Chan) :
    FrameEffect s.params.outBits (runsFrame i s) ch (s.chan ch) (t.chan ch) ∨
    (∃ o, drains i s ch ∧ (s.chan ch).fillIndex = Config.cap ∧ o ≠ .off ∧ t.chan ch = (s.chan ch).drained o) ∨
    (drains i s ch ∧ (s.chan ch).fillIndex ≠ Config.cap ∧
      t.chan ch = { s.chan ch with underrun := true, underruns := (s.chan ch).underruns + 1 }) ∨
    ((∃ off size v, i = .ctrlWrite off size v) ∧ t.chan ch = (s.chan ch).clearCounters) ∨
    (i = .sysReset ∧ t.chan ch = Channel.reset) := by
  cases hev : i.isEvent
  · exact Or.inl ((frame_chan hev h ch).mono fun j hj => Or.inl hj)
  · cases i <;> simp only [Instr.isEvent, Bool.false_eq_true] at hev
    case selAssert =>
      left; left
      simp only [exec, execSelAssert, armEngine_spec] at h
      repeat' (split at h)
      all_goals (cases h; cases ch <;> rfl)
    case selDeassert =>
      cases hs : s.rx.state
      · left; left
        simp only [exec, execSelDeassert, hs] at h
        cases h; simp
      · cases ha : s.rx.armed
        · left; left
          simp only [exec, execSelDeassert, hs, ha, Bool.false_eq_true, if_false] at h
          cases h; simp
        · cases hd : decode s.captured with
          | error r =>
            left; left
            rw [execSelDeassert_error hs ha hd] at h
            cases h; simp [raiseReject]
          | ok j =>
            rw [execSelDeassert_ok hs ha hd] at h
            have e := (frame_chan (decode_isFrame hd) h ch).mono (r' := runsFrame .selDeassert s)
              (by rintro k rfl; exact Or.inr ⟨rfl, hs, ha, hd⟩)
            rw [chan_closeCapture, params_closeCapture] at e
            exact Or.inl e
    case rxByte b =>
      left; left
      simp only [exec, execRxByte] at h
      repeat' (split at h)
      all_goals (cases h; try (cases ch <;> rfl))
    case rxError =>
      left; left
      simp only [exec, execRxError, rxPoll_spec] at h
      cases h; cases ch <;> rfl
    case drainHalf n =>
      left; left
      simp only [exec, execDrainHalf] at h
      split at h <;> cases h
      simp
    case drainComplete n =>
      simp only [exec, execDrainComplete] at h
      split at h
      · cases h
      · rename_i c hc
        have hn : n = c.toNat := by
          match n, hc with
          | 0, hc => cases hc; rfl
          | 1, hc => cases hc; rfl
        subst hn
        split at h
        · rename_i hg
          by_cases hcc : ch = c
          · subst hcc
            split at h
            · rename_i hf
              cases h
              simp only [chan_endEvent, drainSwap]
              obtain ⟨o, ho, e⟩ := outStart_exists ch (setUnderrun ch false (swapChan ch s))
              refine Or.inr (Or.inl ⟨o, ⟨rfl, hg.1, hg.2⟩, hf, ho, ?_⟩)
              rw [e]
              simp only [chan_setUnderrun, chan_swapChan]
              rfl
            · rename_i hf
              cases h
              refine Or.inr (Or.inr (Or.inl ⟨⟨rfl, hg.1, hg.2⟩, hf, ?_⟩))
              simp [drainUnderrun]
          · left; left
            obtain rfl : ch = c.other := by cases ch <;> cases c <;> first | rfl | exact absurd rfl hcc
            split at h <;> cases h
            · simp only [chan_endEvent, drainSwap, chan_outStart_other, setUnderrun, swapChan, chan_setChan_other]
            · simp only [chan_endEvent, drainUnderrun, chan_record, chan_setChan_other]
        · left; left; cases h; simp
    case statusRead off size =>
      left; left
      simp only [exec, execStatusRead] at h
      repeat' (split at h)
      all_goals (cases h; try (cases ch <;> rfl))
    case ctrlWrite off size v =>
      simp only [exec, execCtrlWrite] at h
      repeat' (split at h)
      · cases h
        exact Or.inr (Or.inr (Or.inr (Or.inl ⟨⟨_, _, _, rfl⟩, by cases ch <;> rfl⟩)))
      · left; left; cases h; simp
      · cases h
      · cases h
    case sysReset =>
      cases h
      exact Or.inr (Or.inr (Or.inr (Or.inr ⟨rfl, by cases ch <;> rfl⟩)))

/-! ## The clock and the receiver -/

/-- Whether any channel plays. -/
def State.anyPlaying (s : State) : Bool := s.c0.isPlaying || s.c1.isPlaying

theorem anyPlaying_eq (s : State) (ch : Chan) :
    s.anyPlaying = ((s.chan ch).isPlaying || (s.chan ch.other).isPlaying) := by
  cases ch
  · rfl
  · exact Bool.or_comm _ _

theorem anyPlaying_of_chan {s t : State} (h : ∀ ch, (t.chan ch).isPlaying = (s.chan ch).isPlaying) :
    t.anyPlaying = s.anyPlaying := by
  rw [anyPlaying_eq t .ch0, anyPlaying_eq s .ch0, h, h]

theorem stopIfPlaying_clk_iff (ch : Chan) (s : State) (h : s.clkRunning = s.anyPlaying) :
    (stopIfPlaying ch s).clkRunning = (s.chan ch.other).isPlaying := by
  rw [stopIfPlaying_clk, h, anyPlaying_eq s ch]
  cases (s.chan ch).isPlaying <;> simp

/-- A frame operation keeps the clock in step with the playing channels, and never touches the receiver. -/
theorem frame_clk_rx {i : Instr} {s t : State} (hi : i.isEvent = false) (h : exec i s = .next t) :
    t.rx = s.rx ∧ (s.clkRunning = s.anyPlaying → t.clkRunning = t.anyPlaying) := by
  cases i <;> simp only [Instr.isEvent, Bool.true_eq_false] at hi
  case play c p =>
    cases h
    refine ⟨by simp, fun _ => ?_⟩
    rw [anyPlaying_eq _ c]
    simp
  case stop c p =>
    cases h
    refine ⟨by simp, fun hc => ?_⟩
    rw [anyPlaying_eq _ c]
    simp only [chan_endEvent, endEvent_clkRunning]
    rw [stopIfPlaying_clk_iff c _ (by simpa [State.anyPlaying] using hc), stopIfPlaying_chan_same,
      stopIfPlaying_chan_other, chan_countCommand]
    cases hp : (s.chan c).isPlaying <;> simp [hp]
  case volume c p =>
    cases h
    refine ⟨by simp, fun hc => ?_⟩
    simp only [endEvent_clkRunning, setChan_clkRunning, countCommand_clkRunning]
    rw [hc]
    cases c <;> rfl
  case reset c p =>
    cases h
    refine ⟨by simp, fun hc => ?_⟩
    rw [anyPlaying_eq _ c]
    simp only [chan_endEvent, endEvent_clkRunning, setChan_clkRunning, chan_setChan_same, chan_setChan_other]
    rw [stopIfPlaying_clk_iff c _ (by simpa [State.anyPlaying] using hc), stopIfPlaying_chan_other]
    simp [Channel.clear]
  case data c xs =>
    simp only [exec, execData] at h
    split at h
    · cases h
      exact ⟨by simp [raiseReject], fun hc => by simpa [raiseReject, State.anyPlaying] using hc⟩
    · cases h
      refine ⟨by simp, fun hc => ?_⟩
      simp only [endEvent_clkRunning, setChan_clkRunning, countData_clkRunning]
      rw [hc]
      apply anyPlaying_of_chan ?_ |>.symm
      intro ch
      by_cases hcc : ch = c
      · subst hcc
        rw [chan_endEvent, chan_setChan_same, chan_countData]
        exact fill_isPlaying _ _ _
      · rw [chan_endEvent, chan_setChan_of_ne hcc, chan_countData]

/-- What the receiver's state must meet (items 4 and 5 of R57, and the landing buffer's form). -/
def Reception.Ok (r : Reception) : Prop :=
  (r.state = .idle → r.armed = false) ∧ r.count ≤ Config.landSize ∧ r.land.wf = true

/-- Every operation keeps the receiver's invariant. -/
theorem exec_rx {i : Instr} {s t : State} (h : exec i s = .next t) (hr : s.rx.Ok) : t.rx.Ok := by
  cases hev : i.isEvent
  · rw [(frame_clk_rx hev h).1]; exact hr
  · obtain ⟨h1, h2, h3⟩ := hr
    cases i <;> simp only [Instr.isEvent, Bool.false_eq_true] at hev
    case selAssert =>
      simp only [exec, execSelAssert, armEngine_spec] at h
      repeat' (split at h)
      all_goals cases h
      all_goals first
        | exact ⟨h1, h2, h3⟩
        | exact ⟨fun h => by simp at h, Nat.zero_le _, h3⟩
    case selDeassert =>
      cases hs : s.rx.state
      · simp only [exec, execSelDeassert, hs] at h
        cases h; exact ⟨h1, h2, h3⟩
      · have hc : (closeCapture s).rx.Ok := by rw [rx_closeCapture]; exact ⟨fun _ => rfl, h2, h3⟩
        cases ha : s.rx.armed
        · simp only [exec, execSelDeassert, hs, ha, Bool.false_eq_true, if_false] at h
          cases h; exact hc
        · cases hd : decode s.captured with
          | error r => rw [execSelDeassert_error hs ha hd] at h; cases h; exact hc
          | ok j =>
            rw [execSelDeassert_ok hs ha hd] at h
            rw [(frame_clk_rx (decode_isFrame hd) h).1]; exact hc
    case rxByte b =>
      simp only [exec, execRxByte] at h
      split at h
      · split at h
        · rename_i hg
          cases h
          exact ⟨fun h => by simp [hg.1] at h, hg.2.2, Memory.wf_write h3 hg.2.2 _⟩
        · cases h; exact ⟨h1, h2, h3⟩
      · cases h
    case rxError =>
      simp only [exec, execRxError, rxPoll_spec] at h
      cases h; exact ⟨fun _ => rfl, h2, h3⟩
    case drainHalf n =>
      simp only [exec, execDrainHalf] at h
      split at h <;> cases h
      exact ⟨h1, h2, h3⟩
    case drainComplete n =>
      simp only [exec, execDrainComplete] at h
      repeat' (split at h)
      all_goals cases h
      all_goals
        have hr : s.rx.Ok := ⟨h1, h2, h3⟩
        simpa [drainSwap, drainUnderrun, setUnderrun, swapChan] using hr
    case statusRead off size =>
      simp only [exec, execStatusRead] at h
      repeat' (split at h)
      all_goals cases h
      exact ⟨h1, h2, h3⟩
    case ctrlWrite off size v =>
      simp only [exec, execCtrlWrite] at h
      repeat' (split at h)
      all_goals cases h
      all_goals exact ⟨h1, h2, h3⟩
    case sysReset =>
      cases h
      exact ⟨fun _ => rfl, Nat.zero_le _, h3⟩

/-- Every operation keeps the clock in step with the playing channels (R47, item 3 of R57). -/
theorem exec_clk {i : Instr} {s t : State} (h : exec i s = .next t) (hc : s.clkRunning = s.anyPlaying) :
    t.clkRunning = t.anyPlaying := by
  cases hev : i.isEvent
  · exact (frame_clk_rx hev h).2 hc
  · cases i <;> simp only [Instr.isEvent, Bool.false_eq_true] at hev
    case selAssert =>
      simp only [exec, execSelAssert, armEngine_spec] at h
      repeat' (split at h)
      all_goals (cases h; exact hc)
    case selDeassert =>
      have hcl : (closeCapture s).clkRunning = (closeCapture s).anyPlaying := by
        rw [clkRunning_closeCapture, hc]; exact (anyPlaying_of_chan fun ch => by rw [chan_closeCapture]).symm
      cases hs : s.rx.state
      · simp only [exec, execSelDeassert, hs] at h
        cases h; exact hc
      · cases ha : s.rx.armed
        · simp only [exec, execSelDeassert, hs, ha, Bool.false_eq_true, if_false] at h
          cases h; exact hcl
        · cases hd : decode s.captured with
          | error r => rw [execSelDeassert_error hs ha hd] at h; cases h; exact hcl
          | ok j =>
            rw [execSelDeassert_ok hs ha hd] at h
            exact (frame_clk_rx (decode_isFrame hd) h).2 hcl
    case rxByte b =>
      simp only [exec, execRxByte] at h
      repeat' (split at h)
      all_goals cases h
      all_goals exact hc
    case rxError =>
      simp only [exec, execRxError, rxPoll_spec] at h
      cases h; exact hc
    case drainHalf n =>
      simp only [exec, execDrainHalf] at h
      split at h <;> cases h
      exact hc
    case drainComplete n =>
      simp only [exec, execDrainComplete] at h
      repeat' (split at h)
      all_goals cases h
      · rename_i ch _ _ _
        have : (drainSwap ch s).endEvent.anyPlaying = s.anyPlaying := by
          rw [anyPlaying_eq _ ch, anyPlaying_eq _ ch]
          simp only [chan_endEvent, drainSwap, chan_outStart_same, chan_outStart_other, setUnderrun,
            swapChan, chan_setChan_other, chan_setChan_same, swap_spec]
          split <;> rfl
        rw [this, ← hc]
        simp [drainSwap, setUnderrun, swapChan]
      · rename_i ch _ _ _
        have : (drainUnderrun ch s).endEvent.anyPlaying = s.anyPlaying := by
          rw [anyPlaying_eq _ ch, anyPlaying_eq _ ch]
          simp [drainUnderrun]
        rw [this, ← hc]
        simp [drainUnderrun]
      · exact hc
    case statusRead off size =>
      simp only [exec, execStatusRead] at h
      repeat' (split at h)
      all_goals cases h
      exact hc
    case ctrlWrite off size v =>
      simp only [exec, execCtrlWrite] at h
      repeat' (split at h)
      all_goals cases h
      all_goals exact hc
    case sysReset =>
      cases h; rfl

end Sys2Proof.Machine
end

