-- ==== Sys2Proof/Laws/Clock.lean ====
section
/-! SUPPORT. The parameters and the collaborators: what an operation does to them, what a tick of the clock can do,
and what one step can do (spec 10_state.md R64, 44_output_driver.md R308; entries 14 and 22). -/

namespace Sys2Proof.Machine

/-! ## The engines through an operation -/

/-- Every engine agrees with the block's record of it. -/
def State.EnginesGood (s : State) : Prop := ∀ ch, EngineGood (s.chan ch).outState (s.ext.engine ch)

theorem EngineGood.of_drain {o o' : OutState} {e e' : Engine} (h : EngineGood o e)
    (hd : o' = .running ↔ e'.drain = .draining) (hp : e'.position = e.position) : EngineGood o' e' :=
  ⟨hd, hp ▸ h.position_lt⟩

theorem engineGood_started : EngineGood .running .started := ⟨by decide, by decide⟩

theorem EngineGood.failed {o : OutState} {e : Engine} (h : EngineGood o e) : EngineGood .fallback e.failed := by
  refine h.of_drain ?_ rfl
  cases hd : e.drain <;> simp [Engine.failed, hd]

theorem EngineGood.disabled {o : OutState} {e : Engine} (h : EngineGood o e) (a : Answer) :
    EngineGood .off (e.disabled a) := by
  cases a <;> exact h.of_drain (by simp [Engine.disabled]) rfl

/-- What leaves the engines and the outputs' states alone keeps their agreement. -/
theorem State.EnginesGood.congr {s t : State} (h : s.EnginesGood)
    (ho : ∀ ch, (t.chan ch).outState = (s.chan ch).outState) (he : ∀ ch, t.ext.engine ch = s.ext.engine ch) :
    t.EnginesGood := fun ch => by rw [ho, he]; exact h ch

theorem State.EnginesGood.setChan {s : State} (h : s.EnginesGood) {ch : Chan} {c : Channel}
    (hc : c.outState = (s.chan ch).outState) : (s.setChan ch c).EnginesGood := by
  refine h.congr (fun ch' => ?_) (fun _ => by rw [setChan_ext])
  by_cases hcc : ch' = ch
  · subst hcc; rw [chan_setChan_same, hc]
  · rw [chan_setChan_of_ne hcc]

theorem State.EnginesGood.outStart {s : State} (h : s.EnginesGood) (ch : Chan) : (outStart ch s).EnginesGood := by
  intro ch'
  by_cases hcc : ch' = ch
  · subst hcc
    rw [chan_outStart_same, ext_outStart, engine_setEngine_same]
    split
    · exact engineGood_started
    · exact (h ch').failed
  · obtain rfl : ch' = ch.other := by cases ch <;> cases ch' <;> first | rfl | exact absurd rfl hcc
    rw [chan_outStart_other, ext_outStart, engine_setEngine_other]
    exact h _

theorem State.EnginesGood.outDisable {s : State} (h : s.EnginesGood) (ch : Chan) : (outDisable ch s).EnginesGood := by
  intro ch'
  by_cases hcc : ch' = ch
  · subst hcc
    rw [chan_outDisable_same, ext_outDisable, engine_setEngine_same]
    exact (h ch').disabled _
  · obtain rfl : ch' = ch.other := by cases ch <;> cases ch' <;> first | rfl | exact absurd rfl hcc
    rw [chan_outDisable_other, ext_outDisable, engine_setEngine_other]
    exact h _

theorem State.EnginesGood.stopIfPlaying {s : State} (h : s.EnginesGood) (ch : Chan) :
    (stopIfPlaying ch s).EnginesGood := by
  unfold Machine.stopIfPlaying
  split
  · refine (State.EnginesGood.setChan (h.outDisable ch) (ch := ch)
      (c := { (Machine.outDisable ch s).chan ch with isPlaying := false }) rfl).congr (fun ch' => ?_) fun ch' => ?_
    · rw [stopChannel, chan_clockRelease, setPlaying]
    · rw [stopChannel, ext_clockRelease, setPlaying]
  · exact h

@[simp] theorem fillLoop_outState (ob : Nat) : ∀ (xs : List Half) (c : Channel),
    (Channel.fillLoop ob xs c).2.outState = c.outState
  | [], _ => rfl
  | x :: xs, c => by
    unfold Channel.fillLoop
    split
    · rfl
    · rw [fillLoop_outState ob xs]; rw [store_frame]

theorem swap_keeps_outState (c : Channel) : c.swap.2.outState = c.outState := by
  rw [swap_spec]; split <;> rfl

/-- A frame operation keeps the engines' agreement and the parameters. -/
theorem frame_ext {i : Instr} {s t : State} (hi : i.isEvent = false) (h : exec i s = .next t) :
    t.params = s.params ∧ (s.EnginesGood → t.EnginesGood) := by
  have count : s.EnginesGood → (countCommand s).EnginesGood :=
    fun hg => hg.congr (fun _ => by rw [chan_countCommand]) (fun _ => rfl)
  cases i <;> simp only [Instr.isEvent, Bool.true_eq_false] at hi
  case play ch p =>
    cases h
    constructor
    · unfold playTeardown; split <;> simp
    · intro hg
      have torn : (playTeardown ch (countCommand s)).EnginesGood := by
        unfold playTeardown; split
        · exact (count hg).outDisable ch
        · exact count hg
      have marked := ((torn.setChan (ch := ch) (c := _) (swap_keeps_outState _)).setChan (ch := ch)
        (c := { (swapChan ch _).chan ch with isPlaying := true }) rfl).setChan (ch := ch)
        (c := { (setPlaying ch true (swapChan ch _)).chan ch with underrun := false }) rfl
      exact State.EnginesGood.outStart (marked.congr (fun _ => by rw [chan_clockEnsure]; rfl)
        fun _ => by rw [engine_clockEnsure]; rfl) ch
  case stop ch p =>
    cases h
    refine ⟨?_, fun hg => (count hg).stopIfPlaying ch⟩
    unfold stopIfPlaying; split <;> simp
  case volume ch p =>
    cases h
    exact ⟨by simp, fun hg => (count hg).setChan rfl⟩
  case reset ch p =>
    cases h
    refine ⟨?_, fun hg => ((count hg).stopIfPlaying ch).setChan rfl⟩
    simp only [endEvent_params, setChan_params]
    unfold stopIfPlaying; split <;> simp
  case data ch xs =>
    simp only [exec, execData] at h
    split at h
    · cases h
      exact ⟨rfl, fun hg => hg.congr (fun ch' => by cases ch' <;> rfl) fun _ => rfl⟩
    · cases h
      refine ⟨by simp, fun hg => ?_⟩
      have hd : (countData s).EnginesGood := hg.congr (fun _ => by rw [chan_countData]) (fun _ => rfl)
      exact hd.setChan (fillLoop_outState _ _ _)

/-- Every operation keeps the engines' agreement and the parameters. -/
theorem exec_ext {i : Instr} {s t : State} (h : exec i s = .next t) :
    t.params = s.params ∧ (s.EnginesGood → t.EnginesGood) := by
  cases hev : i.isEvent
  · exact frame_ext hev h
  · have same : ∀ {u : State}, u.params = s.params → (∀ ch, u.chan ch = s.chan ch) → u.ext = s.ext →
        u.params = s.params ∧ (s.EnginesGood → u.EnginesGood) := fun hp hc he =>
      ⟨hp, fun hg => hg.congr (fun ch => by rw [hc]) (fun ch => by rw [he])⟩
    cases i <;> simp only [Instr.isEvent, Bool.false_eq_true] at hev
    case selAssert =>
      simp only [exec, execSelAssert, armEngine_spec] at h
      repeat' (split at h)
      all_goals (cases h; exact same rfl (fun ch => by cases ch <;> rfl) rfl)
    case selDeassert =>
      have hcl : (closeCapture s).params = s.params ∧ (s.EnginesGood → (closeCapture s).EnginesGood) :=
        same (params_closeCapture s) (chan_closeCapture s) (ext_closeCapture s)
      cases hs : s.rx.state
      · simp only [exec, execSelDeassert, hs] at h
        cases h; exact same rfl (fun ch => by simp) rfl
      · cases ha : s.rx.armed
        · simp only [exec, execSelDeassert, hs, ha, Bool.false_eq_true, if_false] at h
          cases h; exact hcl
        · cases hd : decode s.captured with
          | error r =>
            rw [execSelDeassert_error hs ha hd] at h
            cases h
            exact same (by simp [raiseReject]) (fun ch => by simp [raiseReject]) (by simp [raiseReject])
          | ok j =>
            rw [execSelDeassert_ok hs ha hd] at h
            obtain ⟨h1, h2⟩ := frame_ext (decode_isFrame hd) h
            exact ⟨h1.trans hcl.1, fun hg => h2 (hcl.2 hg)⟩
    case rxByte b =>
      simp only [exec, execRxByte] at h
      repeat' (split at h)
      all_goals cases h
      all_goals exact same rfl (fun ch => by cases ch <;> rfl) rfl
    case rxError =>
      simp only [exec, execRxError, rxPoll_spec] at h
      cases h; exact same rfl (fun ch => by cases ch <;> rfl) rfl
    case drainHalf n =>
      simp only [exec, execDrainHalf] at h
      split at h <;> cases h
      exact same rfl (fun ch => by simp) rfl
    case drainComplete n =>
      simp only [exec, execDrainComplete] at h
      repeat' (split at h)
      all_goals cases h
      · rename_i ch _ _ _
        refine ⟨by simp [drainSwap], fun hg => ?_⟩
        have marked := (hg.setChan (ch := ch) (c := _) (swap_keeps_outState _)).setChan (ch := ch)
          (c := { (swapChan ch s).chan ch with underrun := false }) rfl
        exact State.EnginesGood.outStart marked ch
      · rename_i ch _ _ _
        exact ⟨by simp [drainUnderrun], fun hg => hg.setChan (ch := ch) rfl⟩
      · exact same rfl (fun ch => by simp) rfl
    case statusRead off size =>
      simp only [exec, execStatusRead] at h
      repeat' (split at h)
      all_goals cases h
      exact same rfl (fun ch => by cases ch <;> rfl) rfl
    case ctrlWrite off size v =>
      simp only [exec, execCtrlWrite] at h
      repeat' (split at h)
      all_goals cases h
      · exact ⟨rfl, fun hg => hg.congr (fun ch => by cases ch <;> rfl) fun _ => rfl⟩
      · exact same rfl (fun ch => by simp) rfl
    case sysReset =>
      cases h
      have quiet : EngineGood OutState.off { drain := .stopped, position := 0 } := ⟨by decide, by decide⟩
      exact ⟨rfl, fun _ ch => by cases ch <;> exact quiet⟩

/-! ## The clock between events -/

/-- A choice takes nothing but a choice of the environment. -/
theorem afterChoice_spec (e : Env) : e.afterChoice.pending = e.pending ∧ e.afterChoice.answers = e.answers ∧
    e.afterChoice.answerCount = e.answerCount := by
  unfold Env.afterChoice; split <;> exact ⟨rfl, rfl, rfl⟩

theorem phaseClock_none {s : State} (hc : s.clkRunning = true) (hp : s.ext.clockPhase = none) :
    phaseClock s = { s with
      ext := { s.ext with clockPhase := some s.env.choice }
      env := s.env.afterChoice } := by
  simp [phaseClock, hc, hp]

theorem phaseClock_some {s : State} {n : Nat} (hp : s.ext.clockPhase = some n) : phaseClock s = s := by
  unfold phaseClock; rw [hp]; cases s.clkRunning <;> rfl

theorem phaseClock_stopped {s : State} (hc : s.clkRunning = false) : phaseClock s = s := by
  unfold phaseClock; rw [hc]

/-- What the environment's word on the next tick can do: nothing, or one choice taken as the phase. -/
theorem phaseClock_spec (s : State) :
    phaseClock s = { s with env := (phaseClock s).env, ext := (phaseClock s).ext } ∧
      (∀ ch, (phaseClock s).ext.engine ch = s.ext.engine ch) ∧ (phaseClock s).env.pending = s.env.pending := by
  unfold phaseClock
  split
  · exact ⟨rfl, fun ch => by cases ch <;> rfl, (afterChoice_spec _).1⟩
  · exact ⟨rfl, fun _ => rfl, rfl⟩

/-- Passing time touches the clock's phase and nothing else. -/
theorem passTime_spec (s : State) :
    passTime s = { s with ext := (passTime s).ext } ∧ ∀ ch, (passTime s).ext.engine ch = s.ext.engine ch := by
  unfold passTime
  split
  · exact ⟨rfl, fun ch => by cases ch <;> rfl⟩
  · exact ⟨rfl, fun _ => rfl⟩

theorem passTime_stopped {s : State} (hc : s.clkRunning = false) : passTime s = s := by simp [passTime, hc]

theorem passTime_running {s : State} {n : Nat} (hc : s.clkRunning = true) (hp : s.ext.clockPhase = some (n + 1)) :
    passTime s = { s with ext := { s.ext with clockPhase := some n } } := by
  simp [passTime, hc, hp]

/-- The engine after it has read one slot (R308). -/
def Engine.advanced (e : Engine) : Engine :=
  { e with position := if e.position + 1 < Config.cap then e.position + 1 else 0 }

theorem drainSlot_spec (ch : Chan) (s : State) :
    drainSlot ch s = { s with
      ext := s.ext.setEngine ch (s.ext.engine ch).advanced
      env := { s.env with pending := s.env.pending ++ drainEvents ch (s.ext.engine ch).position } } := rfl

/-- What one engine can do at a tick: nothing where it is stopped; else it reads a slot and raises that slot's
event, or, where its disable had not completed, is disabled now. -/
theorem tickEngine_spec (ch : Chan) (s : State) :
    ∃ d : Bool, ((s.ext.engine ch).drain = .stopped → d = false) ∧
      ((s.ext.engine ch).drain = .draining → d = true) ∧
      tickEngine ch s = { s with env := (tickEngine ch s).env, ext := (tickEngine ch s).ext } ∧
      (tickEngine ch s).ext = s.ext.setEngine ch
        (if d then (s.ext.engine ch).advanced else { s.ext.engine ch with drain := .stopped }) ∧
      (tickEngine ch s).env.pending =
        s.env.pending ++ (if d then drainEvents ch (s.ext.engine ch).position else []) ∧
      (tickEngine ch s).env.answers = s.env.answers ∧ (tickEngine ch s).env.answerCount = s.env.answerCount := by
  obtain ⟨h1, h2, h3⟩ := afterChoice_spec s.env
  unfold tickEngine
  split
  · rename_i hd
    refine ⟨false, fun _ => rfl, by simp [hd], rfl, ?_, by simp, rfl, rfl⟩
    rw [if_neg Bool.false_ne_true, ← hd]
    cases ch <;> rfl
  · rename_i hd
    exact ⟨true, by simp [hd], fun _ => rfl, rfl, rfl, rfl, rfl, rfl⟩
  · rename_i hd
    dsimp only
    split
    · refine ⟨false, by simp [hd], by simp [hd], rfl, rfl, by simp [h1, setEngine], h2, h3⟩
    · refine ⟨true, by simp [hd], by simp [hd], rfl, rfl, ?_, h2, h3⟩
      rw [drainSlot_spec]
      exact congrArg (· ++ _) h1

theorem EngineGood.advanced {o : OutState} {e : Engine} (h : EngineGood o e) : EngineGood o e.advanced := by
  refine ⟨h.running_iff, ?_⟩
  unfold Engine.advanced
  dsimp only
  split
  · assumption
  · decide

/-- Two changes outside the block make one. -/
theorem outside_trans {s t u : State} (h : t = { s with env := t.env, ext := t.ext })
    (h' : u = { t with env := u.env, ext := u.ext }) : u = { s with env := u.env, ext := u.ext } := by
  cases s; cases t; cases u; simp_all

/-- A tick touches the engines, the clock's phase and the environment, and keeps the engines' agreement. -/
theorem tickEngine_keeps (ch : Chan) (s : State) :
    tickEngine ch s = { s with env := (tickEngine ch s).env, ext := (tickEngine ch s).ext } ∧
      (s.EnginesGood → (tickEngine ch s).EnginesGood) := by
  obtain ⟨d, hs, hd, ht, he, _⟩ := tickEngine_spec ch s
  refine ⟨ht, fun hg ch' => ?_⟩
  have hc : (tickEngine ch s).chan ch' = s.chan ch' := by rw [ht]; cases ch' <;> rfl
  rw [hc, he]
  by_cases hcc : ch' = ch
  · subst hcc
    rw [engine_setEngine_same]
    cases d
    · refine (hg ch').of_drain ⟨fun ho => ?_, fun h => by simp at h⟩ rfl
      exact absurd (hd ((hg ch').running_iff.1 ho)) (by simp)
    · exact (hg ch').advanced
  · obtain rfl : ch' = ch.other := by cases ch <;> cases ch' <;> first | rfl | exact absurd rfl hcc
    rw [engine_setEngine_other]
    exact hg _

theorem tick_keeps (s : State) :
    tick s = { s with env := (tick s).env, ext := (tick s).ext } ∧ (s.EnginesGood → (tick s).EnginesGood) := by
  obtain ⟨h0, g0⟩ := tickEngine_keeps .ch0 { s with ext := { s.ext with clockPhase := none } }
  obtain ⟨h1, g1⟩ := tickEngine_keeps .ch1 (tickEngine .ch0 { s with ext := { s.ext with clockPhase := none } })
  refine ⟨?_, fun hg => g1 (g0 (hg.congr (fun ch => by cases ch <;> rfl) (fun ch => by cases ch <;> rfl)))⟩
  exact outside_trans (outside_trans (t := { s with ext := { s.ext with clockPhase := none } }) rfl h0) h1

/-! ## One step -/

/-- What one step can do: a tick where one is due, and else the block's own step with the time passed. -/
theorem step_cases {s t : State} (h : step s = .next t) :
    t = tick (phaseClock s) ∨ (takeEvent (passTime (phaseClock s)) = none ∧ t = passTime (phaseClock s)) ∨
      ∃ i u, takeEvent (passTime (phaseClock s)) = some (i, u) ∧ i.isEvent = true ∧ exec i u = .next t := by
  unfold step takeAndRun at h
  split at h
  · exact Or.inl (by cases h; rfl)
  · split at h
    · rename_i hn
      exact Or.inr (Or.inl ⟨hn, by cases h; rfl⟩)
    · rename_i i u hs
      split at h
      · rename_i hi
        exact Or.inr (Or.inr ⟨i, u, hs, hi, h⟩)
      · cases h

/-- Between two ticks a step is the block's own with the time passed. -/
theorem step_betweenTicks {s : State} (h : s.betweenTicks) : step s = takeAndRun (passTime s) := by
  cases hc : s.clkRunning
  · simp [step, phaseClock_stopped hc, tickDue, hc]
  · obtain ⟨n, hn⟩ := h hc
    simp [step, phaseClock_some hn, tickDue, hc, hn]

end Sys2Proof.Machine
end

