-- ==== Sys2Proof/Laws/PerInstr.lean ====
section
/-! SUPPORT. Statements for every operation as a term of Instr, one lemma per constructor. -/

namespace Sys2Proof.Laws

/-- The shape of an operation's encoding: a frame has a header byte of its own kind and fits the landing buffer
(spec 30_encoding.md R111, R112, R117); an event has no encoding (R130). -/
def EncodeShape.Statement (i : Instr) : Prop :=
  i.wf = true →
    match encode i with
    | none => i.isEvent = true
    | some bs =>
      i.isEvent = false ∧ bs.length ≤ Config.landSize ∧
        ((byteAt bs 0 = 0xC0 ∧ bs.length = Config.cmdLen) ∨
          (byteAt bs 0 = 0xDA ∧ ∃ n, 1 ≤ n ∧ n ≤ Config.cap ∧ bs.length = Config.dataHdrLen + 2 * n))

theorem encodeCommand_shape (ch : Chan) (c : Byte) (p : Half) :
    (encodeCommand ch c p).length ≤ Config.landSize ∧
      byteAt (encodeCommand ch c p) 0 = 0xC0 ∧ (encodeCommand ch c p).length = Config.cmdLen := by
  simp [encodeCommand, byteAt, Config.landSize]

theorem EncodeShape.play (ch : Chan) (p : Half) : EncodeShape.Statement (.play ch p) := fun _ =>
  ⟨rfl, (encodeCommand_shape ch _ p).1, Or.inl (encodeCommand_shape ch _ p).2⟩

theorem EncodeShape.stop (ch : Chan) (p : Half) : EncodeShape.Statement (.stop ch p) := fun _ =>
  ⟨rfl, (encodeCommand_shape ch _ p).1, Or.inl (encodeCommand_shape ch _ p).2⟩

theorem EncodeShape.volume (ch : Chan) (p : Half) : EncodeShape.Statement (.volume ch p) := fun _ =>
  ⟨rfl, (encodeCommand_shape ch _ p).1, Or.inl (encodeCommand_shape ch _ p).2⟩

theorem EncodeShape.reset (ch : Chan) (p : Half) : EncodeShape.Statement (.reset ch p) := fun _ =>
  ⟨rfl, (encodeCommand_shape ch _ p).1, Or.inl (encodeCommand_shape ch _ p).2⟩

theorem EncodeShape.data (ch : Chan) (xs : List Half) : EncodeShape.Statement (.data ch xs) := by
  intro h
  simp only [Instr.wf, Bool.and_eq_true, decide_eq_true_eq, Config.cap] at h
  have hl : (encodeData ch xs).length = 4 + 2 * xs.length := by
    simp only [encodeData, List.length_append, encodeSamples_length, List.length_cons, List.length_nil]
  refine ⟨rfl, ?_, Or.inr ⟨rfl, xs.length, h.1, h.2, hl⟩⟩
  simp only [hl, Config.landSize]
  omega

theorem EncodeShape.selAssert : EncodeShape.Statement .selAssert := fun _ => rfl

theorem EncodeShape.selDeassert : EncodeShape.Statement .selDeassert := fun _ => rfl

theorem EncodeShape.rxByte (b : Nat) : EncodeShape.Statement (.rxByte b) := fun _ => rfl

theorem EncodeShape.rxError : EncodeShape.Statement .rxError := fun _ => rfl

theorem EncodeShape.drainHalf (ch : Nat) : EncodeShape.Statement (.drainHalf ch) := fun _ => rfl

theorem EncodeShape.drainComplete (ch : Nat) : EncodeShape.Statement (.drainComplete ch) := fun _ => rfl

theorem EncodeShape.statusRead (off : Nat) (size : AccessSize) : EncodeShape.Statement (.statusRead off size) :=
  fun _ => rfl

theorem EncodeShape.ctrlWrite (off : Nat) (size : AccessSize) (v : Nat) :
    EncodeShape.Statement (.ctrlWrite off size v) := fun _ => rfl

theorem EncodeShape.sysReset : EncodeShape.Statement .sysReset := fun _ => rfl

end Sys2Proof.Laws
end

