-- ==== Sys2Proof/Tests/Slice0.lean ====
section
/-! SUPPORT. The model's own tests: what WellFormed refuses, frames written out byte by byte, single operations
against the vectors of spec 95_test_vectors.md, and for every statement with hypotheses a state and operands
that meet them. -/

namespace Sys2Proof.Tests

open Sys2Proof Sys2Proof.Machine

/-! ## Helpers -/

/-- The state after reset with these answers to come. -/
def answering (as : List Answer) : State := { State.reset with env := { State.reset.env with answers := as } }

/-- The state after reset with quiet answers to come. -/
def quiet : State := answering [.quiet, .quiet, .quiet]

/-- A playing channel with this fill index. -/
def playingChannel (o : OutState) (fill : Nat) : Channel :=
  { Channel.reset with isPlaying := true, outState := o, fillIndex := fill }

/-- An engine in this mode at slot `k`. -/
def engineAt (d : Drain) (k : Nat) : Engine := { drain := d, position := k }

/-- Channel `ch` alone playing, its engine where `out_state` says so draining, one step before a tick of the clock,
with these answers to come. -/
def playing (as : List Answer) (ch : Chan) (o : OutState) (fill : Nat) : State :=
  setEngine ch (engineAt (if o = .running then .draining else .stopped) 0)
    (State.setChan
      { answering as with clkRunning := true, ext := { Collaborators.quiet with clockPhase := some 1 } } ch
      (playingChannel o fill))

/-- Channel 0 playing, a tick of the clock due, and both engines like this. -/
def ticking (e0 e1 : Engine) (choices : List Nat) : State :=
  { playing [] .ch0 .running 0 with
    env := { State.reset.env with choices := choices }
    ext := { engine0 := e0, engine1 := e1, clockPhase := some 0 } }

/-- A stopped channel 0 with this fill index. -/
def filled (fill : Nat) : State := (quiet.setChan .ch0 { Channel.reset with fillIndex := fill }).endEvent

/-- An armed capture of these bytes, its deassertion pending, with these answers to come. -/
def captured (as : List Answer) (bs : List Byte) : State := holdFrame bs (answering as)

/-- The next state, where there is one. -/
def after (i : Instr) (s : State) : Option State :=
  match exec i s with
  | .next t => some t
  | .fault _ => none
  | .refused _ => none

/-- A value of the next state. -/
def view {α : Type} (f : State → α) (i : Instr) (s : State) : Option α := (after i s).map f

/-! ## WellFormed refuses (30_encoding.md R117, R131; 10_state.md R62) -/

theorem test_wf_data_empty : (Instr.data .ch0 []).wf = false := by decide

theorem test_wf_data_too_long : (Instr.data .ch0 (List.replicate 2049 0)).wf = false := by
  simp only [Instr.wf, List.length_replicate]
  decide

theorem test_wf_rxByte : (Instr.rxByte 256).wf = false := by decide

theorem test_wf_drainHalf : (Instr.drainHalf 2).wf = false := by decide

theorem test_wf_drainComplete : (Instr.drainComplete 2).wf = false := by decide

theorem test_wf_statusRead :
    (Instr.statusRead 0x02 .word).wf = false ∧ (Instr.statusRead 0x80 .word).wf = false ∧
      (Instr.statusRead 0x00 .half).wf = false := by decide

theorem test_wf_ctrlWrite :
    (Instr.ctrlWrite 0x61 .word 1).wf = false ∧ (Instr.ctrlWrite 0x80 .word 1).wf = false ∧
      (Instr.ctrlWrite 0x60 .byte 1).wf = false ∧ (Instr.ctrlWrite 0x60 .word (2 ^ 32)).wf = false := by decide

/-! ## Frames written out from R111, R112 and R121 -/

theorem test_decode_play : decode [0xC0, 0x00, 0x01, 0x12, 0x34] = .ok (.play .ch0 0x1234) := by decide

theorem test_decode_stop : decode [0xC0, 0x01, 0x02, 0x00, 0x00] = .ok (.stop .ch1 0) := by decide

theorem test_decode_volume : decode [0xC0, 0x01, 0x03, 0x01, 0x2C] = .ok (.volume .ch1 300) := by decide

theorem test_decode_reset : decode [0xC0, 0x00, 0xFF, 0x00, 0x00] = .ok (.reset .ch0 0) := by decide

/-- 95_test_vectors.md section 2.5: the byte after the last sample is ignored. -/
theorem test_decode_data : decode [0xDA, 0x00, 0x00, 0x01, 0x34, 0x12, 0x99] = .ok (.data .ch0 [0x1234]) := by
  decide

/-- 95_test_vectors.md section 2.5: the channel is checked last in a Data frame and first in a Command frame. -/
theorem test_decode_check_order :
    decode [0xDA, 0x05, 0x00, 0x00] = .error (.badCount 0) ∧
      decode [0xDA, 0x05, 0x00, 0x02, 0x01] = .error (.dataShort 5) ∧
      decode [0xDA, 0x05, 0x00, 0x01, 0x00, 0x00] = .error (.badChannel 5) ∧
      decode [0xC0, 0x02, 0x07, 0x00, 0x00] = .error (.badChannel 2) := by decide

theorem test_encode_data : encode (.data .ch1 [0x7FFF, 0x8000]) =
    some [0xDA, 0x01, 0x00, 0x02, 0xFF, 0x7F, 0x00, 0x80] := by decide

theorem test_table_command : decodeTableWord 40 0xC001030032 = some (.volume .ch1 50) := by decide

theorem test_table_data : decodeTableWord 32 0xDA010001 = some (.data .ch1 [0]) := by decide

theorem test_fetch_word : step (quiet.withFetchWord 40 0xC000010000) =
    exec (.play .ch0 0) (closeCapture { captured [.quiet, .quiet, .quiet] [0xC0, 0, 1, 0, 0] with
      env := quiet.env }) := rfl

/-! ## Samples (95_test_vectors.md sections 2.1 and 2.2) -/

theorem test_convert :
    convertAt 12 0x7FFF = 4095 ∧ convertAt 12 0x8000 = 0 ∧ convertAt 12 0xFFFF = 2047 ∧
      convertAt 12 0x000F = 2048 ∧ convertAt 12 0xFFEF = 2046 := by decide

theorem test_scale :
    scaleAt 12 4095 1 = 2068 ∧ scaleAt 12 4095 99 = 4074 ∧ scaleAt 12 0 99 = 21 ∧ scaleAt 12 2047 50 = 2048 ∧
      scaleAt 12 2047 100 = 2047 ∧ scaleAt 12 0 0 = 2048 := by decide

/-! ## One operation each (95_test_vectors.md sections 1 and 2) -/

/-- L1.6: PLAY with an empty fill buffer. -/
theorem test_play_empty : view (fun t => (t.c0.isPlaying, t.c0.act, t.trace)) (.play .ch0 0) quiet =
    some (true, .b0, [.clkStart, .outStart .ch0 .b0 2048]) := by decide

/-- Section 2.6: PLAY of a playing channel with a full fill buffer. -/
theorem test_play_again_full : view (fun t => (t.c0.act, t.c0.fillIndex, t.c0.swaps, t.trace)) (.play .ch0 0)
    (playing [.quiet, .quiet] .ch0 .running 2048) =
    some (.b1, 0, 1, [.outDisable .ch0, .outStart .ch0 .b1 2048]) := by decide

/-- Section 2.6: STOP with a disable timeout. -/
theorem test_stop_timeout : view (fun t => (t.c1.outState, t.clkRunning, t.stats.transportFaults, t.trace))
    (.stop .ch1 0) (playing [.adverse] .ch1 .running 0) =
    some (.off, false, 1, [.outDisable .ch1, .diag .outPollTimeout (some 1), .clkStop]) := by decide

/-- Section 2.6: VOLUME above 100. -/
theorem test_volume_clamped : view (fun t => (t.c1.volume, t.c0.volume)) (.volume .ch1 0xFFFF) quiet =
    some (100, 100) := by decide

theorem test_volume_low : view (fun t => t.c0.volume) (.volume .ch0 50) quiet = some 50 := by decide

/-- Section 2.6: RESET of the only playing channel keeps roles, volume and swaps. -/
theorem test_reset_playing : view (fun t => ((t.c0.isPlaying, t.c0.outState, t.c0.fillIndex, t.c0.act),
      t.c0.volume, t.c0.swaps, t.trace)) (.reset .ch0 0)
    ((playing [.quiet] .ch0 .running 0).setChan .ch0
      { playingChannel .running 100 with act := .b1, volume := 40, swaps := 3 }) =
    some ((false, .off, 0, .b1), 40, 3, [.outDisable .ch0, .clkStop]) := by decide

/-- P2 step b: three samples at volume 50. -/
theorem test_data_volume_50 : view (fun t => (t.c1.buf1.read 12 0, t.c1.buf1.read 12 1, t.c1.buf1.read 12 2,
      t.c1.fillIndex)) (.data .ch1 [0x7FFF, 0x8000, 0xFFFF])
    (quiet.setChan .ch1 { Channel.reset with volume := 50 }) = some (3071, 1024, 2048, 3) := by decide

/-- Section 2.3: one slot left. -/
theorem test_data_overrun : view (fun t => (t.c0.fillIndex, t.c0.totalSamples, t.c0.buf1.read 12 2047))
    (.data .ch0 [0x7FFF, 0, 0]) (filled 2047) = some (2048, 1, 4095) := by decide

/-- Section 2.4: a failed arm. -/
theorem test_selAssert_unarmed : view (fun t => (t.rx.state, t.rx.armed, t.stats.transportFaults, t.trace))
    .selAssert (answering [.adverse, .adverse]) =
    some (.capturing, false, 2, [.diag .rxNotReady none, .rxForceReset, .diag .rxPollTimeout none]) := by decide

/-- L1.7: N = 5000. -/
theorem test_selDeassert_bad_count : view (fun t => (t.stats.invalidChanLen, t.stats.lastCaptured, t.trace))
    .selDeassert (captured [.quiet] [0xDA, 0x00, 0x13, 0x88, 0x01, 0x02, 0x03, 0x04]) =
    some (1, 8, [.rxTerminate, .diag .badCount (some 5000)]) := by decide

/-- Section 2.4: a terminate timeout, then the PLAY. -/
theorem test_selDeassert_timeout : view (fun t => (t.c0.isPlaying, t.stats.transportFaults, t.trace))
    .selDeassert (captured [.adverse, .quiet] [0xC0, 0x00, 0x01, 0x00, 0x00]) =
    some (true, 1, [.rxTerminate, .diag .rxPollTimeout none, .clkStart, .outStart .ch0 .b0 2048]) := by decide

theorem test_rxByte_stored : view (fun t => (t.rx.count, t.rx.land.read 3)) (.rxByte 0x5A)
    (captured [] [1, 2, 3]) = some (4, 0x5A) := by decide

/-- Section 2.4: a byte in IDLE. -/
theorem test_rxByte_idle : view id (.rxByte 0xC0) quiet = some quiet := by decide

/-- Section 2.4: RX_ERROR in IDLE with a timeout. -/
theorem test_rxError_idle : view (fun t => (t.rx.state, t.stats.transportFaults, t.trace)) .rxError
    (answering [.adverse]) =
    some (.idle, 2, [.diag .rxError none, .rxForceReset, .diag .rxPollTimeout none]) := by decide

theorem test_drainHalf : view id (.drainHalf 0) quiet = some quiet := by decide

/-- L1.10: the underrun. -/
theorem test_drainComplete_underrun : view (fun t => (t.c0.underrun, t.c0.underruns, t.c0.isPlaying, t.trace))
    (.drainComplete 0) (playing [] .ch0 .running 1000) =
    some (true, 1, true, [.diag .underrun (some 0)]) := by decide

/-- Section 2.7: a full fill buffer and a failed start. -/
theorem test_drainComplete_fail : view (fun t => (t.c0.act, t.c0.outState, t.c0.isPlaying, t.trace))
    (.drainComplete 0) (playing [.adverse] .ch0 .running 2048) =
    some (.b1, .fallback, true, [.outStart .ch0 .b1 2048, .diag .startFail (some 0), .outFallback .ch0]) := by
  decide

/-- Section 2.9: CH_STATUS(1) in FALLBACK, and VOLUME at 0x28. -/
theorem test_statusRead : view (fun t => t.readData) (.statusRead 0x40 .word) (playing [] .ch1 .fallback 0) =
      some (some 0x21) ∧
    view (fun t => t.readData) (.statusRead 0x28 .word) quiet = some (some 100) := by decide

/-- Section 2.9: the counter reset, and a write to another offset. -/
theorem test_ctrlWrite : view (fun t => (t.stats.dataFrames, t.c0.fillIndex)) (.ctrlWrite 0x60 .word 1)
      { filled 7 with stats := { ErrorStats.reset with dataFrames := 9 } } = some (0, 7) ∧
    view (fun t => t.stats.dataFrames) (.ctrlWrite 0x04 .word 1)
      { filled 7 with stats := { ErrorStats.reset with dataFrames := 9 } } = some 9 := by decide

/-- Section 2.10: the reset of a playing block, with an event pending. -/
theorem test_sysReset : view (fun t => (t.c0, t.clkRunning, t.env.pending, t.trace)) .sysReset
    { playing [] .ch0 .running 5 with env := { State.reset.env with pending := [.rxError] } } =
    some (Channel.reset, false, [], []) := by decide

theorem test_reset_memories : State.reset.rx.land.wf = true ∧ State.reset.c0.buf0.wf 12 = true := by decide

/-! ## The configuration arguments (00_scope.md R8) -/

/-- R151 and R152 by hand for OUT_BITS = 8: 0x7FFF is 127 + 128, 0x8000 is -128 + 128. -/
theorem test_data_eight_bits : view (fun t => (t.c0.buf1.read 8 0, t.c0.buf1.read 8 1, t.c0.buf1.read 8 2))
    (.data .ch0 [0x7FFF, 0x8000]) { quiet with params := { Params.hardware with outBits := 8 } } =
    some (255, 0, 128) := by decide

/-- D11 and D24: with the other polarities the levels are read the other way round. -/
theorem test_polarities :
    selectEvent Params.hardware false = .selAssert ∧ quiet.readyPin = true ∧
      selectEvent { Params.hardware with selActiveLow := false } true = .selAssert ∧
      State.readyPin { quiet with params := { Params.hardware with readyActiveHigh := false } } = false := by
  decide

/-! ## The clock and the engines between events (44_output_driver.md R308) -/

/-- The next state of a step, where there is one. -/
def viewStep {α : Type} (f : State → α) (s : State) : Option α :=
  match step s with
  | .next t => some (f t)
  | .fault _ => none
  | .refused _ => none

theorem test_tick_half : viewStep (fun t => (t.ext.engine0.position, t.env.pending))
    (ticking (engineAt .draining 1023) (engineAt .stopped 5) []) = some (1024, [.drainHalf 0]) := by decide

theorem test_tick_complete : viewStep (fun t => (t.ext.engine0.position, t.env.pending))
    (ticking (engineAt .draining 2047) (engineAt .stopped 5) []) = some (0, [.drainComplete 0]) := by decide

/-- An engine whose disable did not complete goes on, or is disabled now. -/
theorem test_tick_undisabled :
    viewStep (fun t => (t.ext.engine1, t.env.pending))
        (ticking (engineAt .draining 7) (engineAt .undisabled 2047) [1]) =
      some (engineAt .undisabled 0, [.drainComplete 1]) ∧
    viewStep (fun t => (t.ext.engine1, t.env.pending))
        (ticking (engineAt .draining 7) (engineAt .undisabled 2047) [0]) =
      some (engineAt .stopped 2047, []) := by decide

/-- R302: the record says OFF after a timeout, and the engine may go on. -/
theorem test_disable_timeout_engine :
    view (fun t => (t.c1.outState, t.ext.engine1.drain)) (.stop .ch1 0) (playing [.adverse] .ch1 .running 0) =
      some (.off, .undisabled) ∧
    view (fun t => (t.c1.outState, t.ext.engine1.drain)) (.stop .ch1 0) (playing [.quiet] .ch1 .running 0) =
      some (.off, .stopped) := by decide

/-- The wire keeps its order: a byte raised after an assertion is not taken first, an engine's event may be. -/
theorem test_eligible : eligible false 0 [.selAssert, .rxByte 1, .drainComplete 0] = [0, 2] := by decide

/-- A playing state that meets R57. -/
def goodPlaying (fill : Nat) : State := playing [.quiet] .ch0 .running fill

/-! ## Witnesses: every hypothesis of every statement is met -/

theorem test_witness_DecodeOfEncodeWithTrailingBytes :
    (Instr.play .ch1 0xFFFF).wf = true ∧ encode (.play .ch1 0xFFFF) = some [0xC0, 1, 1, 0xFF, 0xFF] ∧
      (Instr.data .ch0 [0x8000]).wf = true ∧ encode (.data .ch0 [0x8000]) = some [0xDA, 0, 0, 1, 0, 0x80] := by
  decide

theorem test_witness_DecodeOfEncodeWithTrailingBytes_longest :
    (Instr.data .ch0 (List.replicate 2048 0)).wf = true := by
  simp only [Instr.wf, List.length_replicate]
  decide

theorem test_witness_DecodedSpanBeginsWithItsEncoding :
    decode [0xC0, 0, 2, 0, 0, 0x77] = .ok (.stop .ch0 0) := by decide

theorem test_witness_WireFieldsHaveTheirByteOrder :
    decode [0xC0, 1, 3, 0x01, 0x2C] = .ok (.volume .ch1 300) ∧
      decode [0xDA, 0, 0, 2, 0x34, 0x12, 0xFF, 0x7F] = .ok (.data .ch0 [0x1234, 0x7FFF]) := by decide

/-- Each clause at a boundary, in the order of the statement. -/
theorem test_witness_InvalidSpansAreRejectedInCheckOrder :
    decode [] = .error (.runt 0) ∧ decode [0xC0, 0, 1] = .error (.runt 3) ∧
      decode [0xDB, 0, 1, 0] = .error (.badHeader 0xDB) ∧
      decode [0xC0, 0, 1, 0] = .error (.cmdShort 4) ∧
      decode [0xC0, 2, 7, 0, 0] = .error (.badChannel 2) ∧
      decode [0xC0, 1, 0xFE, 0, 0] = .error (.badCommand 0xFE) ∧
      decode [0xDA, 0, 0, 0] = .error (.badCount 0) ∧ decode [0xDA, 0, 8, 1] = .error (.badCount 2049) ∧
      decode [0xDA, 0, 8, 0] = .error (.dataShort 4) ∧
      decode [0xDA, 0, 0, 1, 0] = .error (.dataShort 5) ∧
      decode [0xDA, 2, 0, 1, 0, 0] = .error (.badChannel 2) := by decide

/-- With the clock stopped, and with it running. -/
theorem test_witness_StepRunsTheCapturedFrame :
    (captured [.quiet] [0xC0, 0, 2, 0, 0]).betweenTicks ∧
      (holdFrame [0xC0, 0, 2, 0, 0] (playing [.quiet] .ch0 .running 0)).betweenTicks ∧
    (captured [.quiet] [0xC0, 0, 2, 0, 0]).env.pending = [.selDeassert] ∧
      (captured [.quiet] [0xC0, 0, 2, 0, 0]).rx.state = .capturing ∧
      (captured [.quiet] [0xC0, 0, 2, 0, 0]).rx.armed = true ∧
      decode (captured [.quiet] [0xC0, 0, 2, 0, 0]).captured = .ok (.stop .ch0 0) :=
  ⟨by simp [State.betweenTicks, captured, answering, holdFrame, State.reset], fun _ => ⟨0, rfl⟩, by decide⟩

/-- Two events pending, one of the wire, and a choice of the second. -/
def twoPending (i : Instr) : State :=
  { State.reset with env := { State.reset.env with pending := [.rxError, i], choices := [1] } }

theorem test_witness_StepTakesOnePendingEvent :
    (∀ i, (twoPending i).betweenTicks) ∧
      (takeEvent (passTime (twoPending (.rxByte 1)))).map Prod.fst = some (.rxByte 1) ∧
      (Instr.rxByte 1).isEvent = true ∧ (Instr.rxByte 1).isWire = true ∧
      (takeEvent (passTime (twoPending (.play .ch0 0)))).map Prod.fst = some (.play .ch0 0) ∧
      (Instr.play .ch0 0).isEvent = false :=
  ⟨fun i => by simp [State.betweenTicks, twoPending, State.reset], by decide⟩

theorem test_witness_EveryPendingOrderIsAdmitted :
    (twoPending (.rxByte 1)).env.pending[1]? = some (.rxByte 1) ∧
      ∀ j e, j < 1 → (twoPending (.rxByte 1)).env.pending[j]? = some e → e.isWire = false := by
  refine ⟨rfl, fun j e hj he => ?_⟩
  obtain rfl : j = 0 := by omega
  cases he
  rfl

/-- Each clause; at a tick every mode of an engine, at both slots that raise an event. -/
theorem test_witness_TimePassesBetweenEvents :
    State.reset.env.pending = [] ∧ State.reset.clkRunning = false ∧
      (goodPlaying 0).env.pending = [] ∧ (goodPlaying 0).clkRunning = true ∧
      (goodPlaying 0).ext.clockPhase = some (0 + 1) ∧
      view (fun t => (t.clkRunning, t.ext.clockPhase)) (.play .ch0 0) quiet = some (true, none) ∧
      (ticking (engineAt .draining 1023) (engineAt .stopped 5) []).clkRunning = true ∧
      (ticking (engineAt .draining 1023) (engineAt .stopped 5) []).ext.clockPhase = some 0 ∧
      (ticking (engineAt .undisabled 2047) (engineAt .draining 2047) [1]).ext.clockPhase = some 0 := by decide

theorem test_witness_EveryWellFormedOperationCompletes :
    (Instr.rxByte 255).wf = true ∧ (Instr.drainComplete 1).wf = true ∧ (Instr.statusRead 0x7C .word).wf = true ∧
      (Instr.ctrlWrite 0x60 .word 0xFFFFFFFF).wf = true := by decide

theorem test_witness_EveryEventEndsWithTheFlowUpdate :
    exec (.drainHalf 1) (filled 2048) = .next (filled 2048).endEvent := rfl

theorem test_witness_SelAssertArmsTheReceiver :
    (answering [.quiet]).rx.state = .idle ∧ (answering [.quiet]).answer = .quiet ∧
      (answering [.adverse, .quiet]).rx.state = .idle ∧ (answering [.adverse, .quiet]).answer = .adverse ∧
      (answering [.adverse, .quiet]).drawn.answer = .quiet ∧
      (answering [.adverse, .adverse]).rx.state = .idle ∧ (answering [.adverse, .adverse]).answer = .adverse ∧
      (answering [.adverse, .adverse]).drawn.answer = .adverse := by decide

theorem test_witness_StraySelectEdgesAreIgnored :
    (captured [] [1]).rx.state = .capturing ∧ quiet.rx.state = .idle := by decide

/-- A capture of this many bytes whose landing buffer lists nothing. -/
def capturedCount (n : Nat) : State :=
  { quiet with rx := { state := .capturing, armed := true, count := n, land := [] } }

theorem test_witness_ReceivedByteLandsAtTheCount :
    (255 < 256) ∧ (capturedCount 4099).rx.state = .capturing ∧ (capturedCount 4099).rx.armed = true ∧
      (capturedCount 4099).rx.count < 4100 ∧ (capturedCount 4099).rx.land.wf = true := by decide

theorem test_witness_ByteOutsideACaptureIsDropped :
    (255 < 256) ∧ quiet.rx.state = .idle ∧ quiet.rx.armed = false ∧ 4100 ≤ (capturedCount 4100).rx.count := by
  decide

theorem test_witness_ReceiveErrorAbandonsTheFrame :
    (answering [.quiet]).answer = .quiet ∧ (answering [.adverse]).answer = .adverse := by decide

theorem test_witness_UnarmedCaptureIsClosedUnparsed :
    view (fun t => (t.rx.state, t.rx.armed)) .selAssert (answering [.adverse, .adverse]) =
      some (.capturing, false) := by decide

theorem test_witness_DeassertRunsTheDecodedFrame :
    (captured [.quiet] [0xC0, 0, 1, 0, 0]).rx.state = .capturing ∧
      (captured [.quiet] [0xC0, 0, 1, 0, 0]).rx.armed = true ∧
      decode (captured [.quiet] [0xC0, 0, 1, 0, 0]).captured = .ok (.play .ch0 0) ∧
      (captured [.quiet] [0xC0, 0, 1, 0, 0]).answer = .quiet ∧
      decode (captured [.adverse] [0xC0, 0, 1, 0, 0]).captured = .ok (.play .ch0 0) ∧
      (captured [.adverse] [0xC0, 0, 1, 0, 0]).answer = .adverse := by decide

theorem test_witness_DroppedFrameChangesOneCounter :
    (captured [.quiet] []).rx.state = .capturing ∧ (captured [.quiet] []).rx.armed = true ∧
      decode (captured [.quiet] []).captured = .error (.runt 0) ∧
      decode (captured [.quiet] [0, 0, 0, 0]).captured = .error (.badHeader 0) ∧
      decode (captured [.quiet] [0xC0, 0, 1, 0]).captured = .error (.cmdShort 4) ∧
      decode (captured [.quiet] [0xC0, 2, 1, 0, 0]).captured = .error (.badChannel 2) ∧
      decode (captured [.quiet] [0xDA, 0, 8, 1]).captured = .error (.badCount 2049) ∧
      decode (captured [.quiet] [0xDA, 0, 0, 1, 0]).captured = .error (.dataShort 5) ∧
      decode (captured [.quiet] [0xC0, 0, 0, 0, 0]).captured = .error (.badCommand 0) := by decide

theorem test_witness_ArmedCaptureCountsExactlyOnce :
    (captured [.quiet] [0xC0]).rx.state = .capturing ∧ (captured [.quiet] [0xC0]).rx.armed = true := by decide

/-- The landing buffers differ above the count. -/
theorem test_witness_BytesAboveTheCountAreNeverRead :
    (∀ a, a < (captured [.quiet] [0xC0]).rx.count →
        Memory.read [(0, 0xC0), (1, 0x55)] a = (captured [.quiet] [0xC0]).rx.land.read a) ∧
      Memory.read [(0, 0xC0), (1, 0x55)] 1 ≠ (captured [.quiet] [0xC0]).rx.land.read 1 ∧
      (after .selDeassert (captured [.quiet] [0xC0])).isSome = true := by
  refine ⟨fun a ha => ?_, by decide, by decide⟩
  obtain rfl : a = 0 := by simpa [captured, holdFrame] using ha
  decide

theorem test_witness_ConvertedSampleIsInRange :
    (1 ≤ 1 ∧ 1 ≤ 16) ∧ (1 ≤ 16 ∧ 16 ≤ 16) ∧ convertAt 1 0x8000 = 0 ∧ convertAt 16 0x7FFF = 65535 := by decide

theorem test_witness_VolumeLawsHold : 1 ≤ 12 ∧ 12 ≤ 16 ∧ 0 ≤ 100 ∧ 100 ≤ 100 := by decide

theorem test_witness_StoredCodeIsExact :
    (1 ≤ 1 ∧ 16 ≤ 16 ∧ 100 ≤ 100) ∧ sampleCode 1 100 0x7FFF = 1 ∧ sampleCode 16 100 0x7FFF = 65535 ∧
      sampleCode 12 100 0x8000 = 0 := by decide

theorem test_witness_DataFillsTheFillBuffer :
    1 ≤ ([0x8000] : List Half).length ∧ ([0x8000] : List Half).length ≤ 2048 ∧
      (((filled 2048).chan .ch0).buf ((filled 2048).chan .ch0).act.other).wf 12 = true ∧
      ((filled 2048).chan .ch0).fillIndex ≤ 2048 ∧
      (((filled 0).chan .ch0).buf ((filled 0).chan .ch0).act.other).wf 12 = true := by decide

theorem test_witness_DataFillsTheFillBuffer_longest :
    1 ≤ (List.replicate 2048 (0 : Half)).length ∧ (List.replicate 2048 (0 : Half)).length ≤ 2048 := by
  simp only [List.length_replicate]
  decide

theorem test_witness_SwapActsOnlyOnAFullBuffer :
    (filled 2047).c0.fillIndex ≠ 2048 ∧ (filled 2048).c0.fillIndex = 2048 := by decide

theorem test_witness_RolesExchangeOnlyWhenFull :
    view (fun t => t.c0.act) (.play .ch0 0) (filled 2048) = some .b1 ∧ (filled 2048).c0.act = .b0 ∧
      view (fun t => t.c0.act) (.drainComplete 0) (playing [.quiet] .ch0 .running 2048) = some .b1 := by decide

theorem test_goodPlaying_full : (goodPlaying 2048).Good where
  outBits_pos := by decide
  outBits_le := by decide
  c0 := ⟨by decide, by decide, by decide, rfl, rfl⟩
  c1 := ⟨by decide, by decide, by decide, rfl, rfl⟩
  clk := rfl
  idle := fun _ => rfl
  count_le := by decide
  ready := rfl
  land_wf := rfl
  engine0 := ⟨by decide, by decide⟩
  engine1 := ⟨by decide, by decide⟩

theorem test_witness_RunningBufferIsNeverWritten :
    (goodPlaying 2048).Good ∧ (goodPlaying 2048).c0.outState = .running ∧
      view (fun t => t.c0.outState) (.drainComplete 0) (goodPlaying 2048) = some .running :=
  ⟨test_goodPlaying_full, rfl, by decide⟩

theorem test_witness_OutputPortReadsTheActiveBuffer :
    ((goodPlaying 0).chan .ch0).outState = .running ∧ 2047 < 2048 ∧
      ((playing [] .ch1 .fallback 0).chan .ch1).outState = .fallback ∧ (quiet.chan .ch0).outState = .off ∧
      ((goodPlaying 0).ext.engine .ch0).position = 0 := by
  decide

theorem test_witness_PlayStartsAStoppedChannel : ((filled 2048).chan .ch0).isPlaying = false := by decide

theorem test_witness_PlayRestartsAPlayingChannel : ((goodPlaying 2048).chan .ch0).isPlaying = true := by decide

theorem test_witness_StopHaltsAPlayingChannel : ((goodPlaying 0).chan .ch0).isPlaying = true := by decide

theorem test_witness_StopOfAStoppedChannelOnlyCounts : (quiet.chan .ch1).isPlaying = false := by decide

theorem test_witness_DataOfAnIllegalCountIsDropped :
    ([] : List Half).length = 0 ∧ 2048 < (List.replicate 2049 (0 : Half)).length := by
  simp only [List.length_replicate]
  decide

theorem test_witness_DrainHalfIsInformational : 1 < 2 := by decide

theorem test_witness_StrayDrainCompleteIsIgnored :
    (quiet.chan .ch0).isPlaying = false ∧ ((playing [] .ch1 .fallback 2048).chan .ch1).outState ≠ .running := by
  decide

theorem test_witness_DrainCompleteSwapsAFullBuffer :
    ((goodPlaying 2048).chan .ch0).isPlaying = true ∧ ((goodPlaying 2048).chan .ch0).outState = .running ∧
      ((goodPlaying 2048).chan .ch0).fillIndex = 2048 := by decide

theorem test_witness_DrainCompleteFlagsAnUnderrun :
    ((goodPlaying 2047).chan .ch0).isPlaying = true ∧ ((goodPlaying 2047).chan .ch0).outState = .running ∧
      ((goodPlaying 2047).chan .ch0).fillIndex < 2048 := by decide

theorem test_witness_ReadyFollowsTheTruthTable :
    (goodPlaying 2048).c0.isPlaying = true ∧ (playing [] .ch1 .fallback 0).c1.isPlaying = true ∧
      (filled 2048).c0.isPlaying = false ∧ (filled 2048).c1.isPlaying = false := by decide

theorem test_witness_ReadyLineIgnoresTheseEvents :
    (filled 2048).readyOut = flow (filled 2048) ∧ (after .selAssert (filled 2048)).isSome = true ∧
      (after .rxError (filled 2048)).isSome = true ∧ (after (.rxByte 255) (filled 2048)).isSome = true ∧
      (after (.drainHalf 1) (filled 2048)).isSome = true ∧
      (after (.statusRead 0x7C .word) (filled 2048)).isSome = true ∧
      (after (.ctrlWrite 0x60 .word 1) (filled 2048)).isSome = true ∧
      (captured [.quiet] []).readyOut = flow (captured [.quiet] []) ∧
      decode (captured [.quiet] []).captured = .error (.runt 0) ∧
      (after .selDeassert (captured [.quiet] [])).isSome = true ∧
      (goodPlaying 2047).readyOut = flow (goodPlaying 2047) ∧ ((goodPlaying 2047).chan .ch0).fillIndex ≠ 2048 ∧
      (after (.drainComplete 0) (goodPlaying 2047)).isSome = true := by decide

theorem test_witness_StatusReadReturnsTheMappedWord :
    (0x60 ≤ 0x60 ∧ 0x60 ≤ 0x7C ∧ 0x60 % 4 = 0) ∧ (0x60 ≤ 0x7C ∧ 0x7C ≤ 0x7C ∧ 0x7C % 4 = 0) := by decide

theorem test_witness_CounterResetClearsOnlyCounters : 0xFFFFFFFF < 2 ^ 32 ∧ 0xFFFFFFFF % 2 = 1 := by decide

theorem test_witness_OtherWindowWritesAreIgnored :
    (0x60 ≤ 0x7C ∧ 0x60 % 4 = 0 ∧ 0xFFFFFFFE < 2 ^ 32 ∧ 0xFFFFFFFE % 2 = 0) ∧
      (0x7C ≤ 0x7C ∧ 0x7C % 4 = 0 ∧ 1 < 2 ^ 32 ∧ 0x7C ≠ 0x60) := by decide

theorem test_witness_UnalignedWindowAccessIsRefused :
    (0x7B ≤ 0x7C ∧ 0x7B % 4 ≠ 0) ∧ (0x7C ≤ 0x7C ∧ AccessSize.half ≠ .word) ∧ 0xFFFFFFFF < 2 ^ 32 := by decide

theorem test_witness_OutOfRangeOperandIsRefused :
    256 ≤ 256 ∧ 2 ≤ 2 ∧ 0x7C < 0x7D ∧ 2 ^ 32 ≤ 2 ^ 32 := by decide

theorem test_witness_StepKeepsGood :
    (goodPlaying 2048).Good ∧
      step (goodPlaying 2048) = .next { goodPlaying 2048 with
        ext := { (goodPlaying 2048).ext with clockPhase := some 0 } } ∧
      exec (.drainHalf 0) (goodPlaying 2048) = .next (goodPlaying 2048).endEvent :=
  ⟨test_goodPlaying_full, rfl, rfl⟩

/-- A good state with an event pending, whose step runs it. -/
theorem test_witness_StepKeepsGood_event :
    (raiseEvent (.drainComplete 0) (goodPlaying 2048)).Good ∧
      step (raiseEvent (.drainComplete 0) (goodPlaying 2048)) = exec (.drainComplete 0) { goodPlaying 2048 with
        ext := { (goodPlaying 2048).ext with clockPhase := some 0 } } ∧
      (after (.drainComplete 0) (goodPlaying 2048)).isSome = true := by
  refine ⟨?_, rfl, by decide⟩
  obtain ⟨h0, h1, h2, h3, h4, h5, h6, h7, h8, h9, h10⟩ := test_goodPlaying_full
  exact ⟨h0, h1, h2, h3, h4, h5, h6, h7, h8, h9, h10⟩

/-- A good state at which a tick is due. -/
theorem test_witness_StepKeepsGood_tick :
    State.Good { goodPlaying 2048 with ext := { (goodPlaying 2048).ext with clockPhase := some 0 } } ∧
      (viewStep (fun t => t.ext.engine0.position)
        { goodPlaying 2048 with ext := { (goodPlaying 2048).ext with clockPhase := some 0 } }) = some 1 := by
  refine ⟨?_, by decide⟩
  obtain ⟨h0, h1, h2, h3, h4, h5, h6, h7, h8, h9, h10⟩ := test_goodPlaying_full
  exact ⟨h0, h1, h2, h3, h4, h5, h6, h7, h8, h9, h10⟩

theorem test_witness_PlayingChangesOnlyByItsCommands :
    (quiet.chan .ch0).isPlaying = false ∧ view (fun t => t.c0.isPlaying) (.play .ch0 0) quiet = some true ∧
      ((goodPlaying 0).chan .ch0).isPlaying = true ∧
      view (fun t => t.c0.isPlaying) (.stop .ch0 0) (goodPlaying 0) = some false := by decide

theorem test_witness_UnderrunChangesOnlyWhereStated :
    ((goodPlaying 2047).chan .ch0).underrun = false ∧
      view (fun t => t.c0.underrun) (.drainComplete 0) (goodPlaying 2047) = some true ∧
      view (fun t => t.c0.underrun) (.reset .ch0 0)
        (quiet.setChan .ch0 { Channel.reset with underrun := true }) = some false := by decide

theorem test_witness_VolumeChangesOnlyByVolume :
    (quiet.chan .ch0).volume = 100 ∧ view (fun t => t.c0.volume) (.volume .ch0 99) quiet = some 99 := by decide

theorem test_witness_OtherChannelIsUntouched :
    (after (.play .ch0 0) quiet).isSome = true ∧ runsFrame (.play .ch0 0) quiet (.play .ch0 0) ∧
      (after (.data .ch1 [1]) quiet).isSome = true ∧ runsFrame (.data .ch1 [1]) quiet (.data .ch1 [1]) ∧
      (after (.drainComplete 0) (goodPlaying 2048)).isSome = true :=
  ⟨by decide, Or.inl rfl, by decide, Or.inl rfl, by decide⟩

end Sys2Proof.Tests
end

/-! ## Byte order on the wire (20_memory.md R86) -/

namespace Sys2Proof

/-- A payload byte, read from the start of the span. -/
theorem byteAt_drop (n : Nat) (bs : List Byte) (k : Nat) : byteAt (bs.drop n) k = byteAt bs (n + k) := by
  simp [byteAt, List.getD_eq_getElem?_getD]

theorem s16le_toNat (lo hi : Byte) : (s16le lo hi).toNat = lo.toNat + 256 * hi.toNat := by
  have h : (s16le lo hi).toNat = 256 * hi.toNat + lo.toNat := u16be_toNat hi lo
  omega

/-- The header field of a Command frame is its operand, whichever of the four commands the span decodes to (R111). -/
theorem decode_command_param {bs : List Byte} {i : Instr} {ch : Chan} {p : Half} (h : decode bs = .ok i)
    (hi : i = .play ch p ∨ i = .stop ch p ∨ i = .volume ch p ∨ i = .reset ch p) :
    p = u16be (byteAt bs 3) (byteAt bs 4) := by
  rcases decode_cases h with ⟨_, _, ch', _, hcode⟩ | ⟨_, _, _, _, ch', _, rfl⟩
  case inl => rcases decodeCode_cases hcode with ⟨_, rfl⟩ | ⟨_, rfl⟩ | ⟨_, rfl⟩ | ⟨_, rfl⟩ <;> simp_all
  case inr => simp at hi

/-- A span that decodes to DATA holds all the bytes it declares, and its samples are those of its payload (R112). -/
theorem decode_data_samples {bs : List Byte} {ch : Chan} {xs : List Half} (h : decode bs = .ok (.data ch xs)) :
    4 + 2 * sampleCount bs ≤ bs.length ∧ xs = decodeSamples (sampleCount bs) (bs.drop 4) := by
  rcases decode_cases h with ⟨_, _, _, _, hcode⟩ | ⟨_, _, _, hlen, _, _, heq⟩
  · rcases decodeCode_cases hcode with ⟨_, heq⟩ | ⟨_, heq⟩ | ⟨_, heq⟩ | ⟨_, heq⟩ <;> cases heq
  · cases heq
    exact ⟨hlen, rfl⟩

theorem decode_data_length {bs : List Byte} {ch : Chan} {xs : List Half} (h : decode bs = .ok (.data ch xs)) :
    xs.length = sampleCount bs := by
  obtain ⟨hlen, rfl⟩ := decode_data_samples h
  exact (encode_decodeSamples _ _ (by rw [List.length_drop]; omega)).1

/-- Sample `k` is made of bytes `4 + 2k` and `5 + 2k` of the span, the low one first (R118). -/
theorem decode_data_sample {bs : List Byte} {ch : Chan} {xs : List Half} (h : decode bs = .ok (.data ch xs))
    {k : Nat} (hk : k < xs.length) :
    xs.getD k 0 = s16le (byteAt bs (4 + 2 * k)) (byteAt bs (5 + 2 * k)) := by
  rw [decode_data_length h] at hk
  obtain ⟨hlen, rfl⟩ := decode_data_samples h
  have hpayload : 2 * sampleCount bs ≤ (bs.drop 4).length := by rw [List.length_drop]; omega
  rw [decodeSamples_getD _ _ k hpayload hk, byteAt_drop, byteAt_drop,
    show 4 + (2 * k + 1) = 5 + 2 * k by omega]

/-- Settles O4: the operand, the sample count and each sample are the span's own bytes, and `u16be` and `s16le` fix
their weights. -/
theorem wireFieldsHaveTheirByteOrder : Obligations.WireFieldsHaveTheirByteOrder := by
  intro bs
  refine ⟨fun ch p h => ?param, fun ch xs h => ⟨?count, fun k hk => ?sample⟩⟩
  case param =>
    have hp : p = u16be (byteAt bs 3) (byteAt bs 4) := by
      rcases h with h | h | h | h <;> exact decode_command_param (ch := ch) h (by simp)
    rw [hp, u16be_toNat]
  case count => rw [decode_data_length h, sampleCount, u16be_toNat]
  case sample => rw [decode_data_sample h hk, s16le_toNat]

end Sys2Proof

/-! ## Filling a channel from a Data frame (40_audio_channel.md R153, 43_dispatcher.md R267) -/

namespace Sys2Proof.Machine

/-- DATA with a number of samples that R117 allows: the frame is counted and the channel filled (R267). -/
theorem exec_data_eq_fill {ch : Chan} {xs : List Half} (hpos : 1 ≤ xs.length) (hcap : xs.length ≤ Config.cap)
    (s : State) :
    exec (.data ch xs) s =
      .next ((countData s).setChan ch ((s.chan ch).fill s.params.outBits xs).2).endEvent := by
  have hlegal : ¬ (xs.length = 0 ∨ xs.length > Config.cap) := by omega
  simp only [exec, execData, if_neg hlegal, chan_countData, countData_params]

/-- What a buffer holds does not depend on the sample counter. -/
@[simp] theorem buf_with_totalSamples (c : Channel) (w : Word) (b : BufSel) :
    ({ c with totalSamples := w } : Channel).buf b = c.buf b := by
  cases b <;> rfl

/-- fill touches no buffer after its loop. -/
@[simp] theorem fill_buf (ob : Nat) (c : Channel) (xs : List Half) (b : BufSel) :
    (c.fill ob xs).2.buf b = (Channel.fillLoop ob xs c).2.buf b :=
  buf_with_totalSamples _ _ b

/-- The fields of a channel that fill writes: the buffers, the index and the sample counter, the last two by the
number of samples stored (R153). -/
theorem fill_frame {ob : Nat} {c : Channel} (xs : List Half) (hwf : (c.buf c.act.other).wf ob = true)
    (hle : c.fillIndex ≤ Config.cap) :
    (c.fill ob xs).2 = { c with
      buf0 := (c.fill ob xs).2.buf0
      buf1 := (c.fill ob xs).2.buf1
      fillIndex := c.fillIndex + min xs.length (Config.cap - c.fillIndex)
      totalSamples := c.totalSamples + BitVec.ofNat 32 (min xs.length (Config.cap - c.fillIndex)) } := by
  obtain ⟨hcount, hindex, hframe, -⟩ := fillLoop_spec ob xs c hwf hle
  rw [← hcount, ← hindex]
  exact congrArg
    (fun d : Channel =>
      { d with totalSamples := d.totalSamples + BitVec.ofNat 32 (Channel.fillLoop ob xs c).1 }) hframe

end Sys2Proof.Machine

namespace Sys2Proof

open Machine

/-- Settles O27: DATA is one `fill` of the channel, whose loop `fillLoop_spec` describes slot by slot and whose
frame is `fill_frame`. -/
theorem dataFillsTheFillBuffer : Obligations.DataFillsTheFillBuffer := by
  intro s ch xs hpos hcap hwf hle
  refine ⟨_, exec_data_eq_fill hpos hcap s, ?_⟩
  obtain ⟨hcount, -, -, hactive, hkeep, hstored, hrest⟩ := fillLoop_spec s.params.outBits xs (s.chan ch) hwf hle
  rw [hcount] at hstored hrest
  simp only [chan_endEvent, chan_setChan_same, fill_buf]
  exact ⟨hstored, hrest, hkeep, hactive, fill_frame xs hwf hle, rfl⟩

end Sys2Proof

/-! ## Storing a received byte (41_frame_receiver.md R193) -/

namespace Sys2Proof.Machine

/-- RX_BYTE while capturing, armed and with room writes the byte at `rx_count` and steps the count (R193). -/
theorem exec_rxByte_store {s : State} {b : Nat} (hb : b < 256) (hstate : s.rx.state = .capturing)
    (harmed : s.rx.armed = true) (hroom : s.rx.count < Config.landSize) :
    exec (.rxByte b) s = .next (State.endEvent { s with
      rx := { s.rx with
        count := s.rx.count + 1
        land := s.rx.land.write s.rx.count (BitVec.ofNat 8 b) } }) := by
  simp only [exec, execRxByte]
  rw [if_pos hb, if_pos ⟨hstate, harmed, hroom⟩]

end Sys2Proof.Machine

namespace Sys2Proof

open Machine

/-- Settles O16: RX_BYTE is one write of the landing buffer (`exec_rxByte_store`), and the memory laws say what
that write leaves to be read. -/
theorem receivedByteLandsAtTheCount : Obligations.ReceivedByteLandsAtTheCount := by
  intro s b hb hstate harmed hroom hwf
  exact ⟨_, exec_rxByte_store hb hstate harmed hroom,
    Memory.read_write_same hwf _ _,
    fun a ha => Memory.read_write_other ha _ _,
    Memory.wf_write hwf hroom _,
    rfl⟩

end Sys2Proof

/-! ## Setting a channel's volume (43_dispatcher.md R264) -/

namespace Sys2Proof.Machine

/-- VOLUME counts the frame and writes one field of one channel. -/
theorem exec_volume (ch : Chan) (p : Half) (s : State) :
    exec (.volume ch p) s =
      .next ((countCommand s).setChan ch
        { s.chan ch with volume := min p.toNat Config.volMax }).endEvent := by
  simp only [exec, execVolume, chan_countCommand]

/-- The clamp of R264, with the upper bound of R8 written out. -/
theorem min_volMax (v : Nat) : min v Config.volMax = if v ≤ 100 then v else 100 :=
  Nat.min_def

end Sys2Proof.Machine

namespace Sys2Proof

open Machine

/-- Settles O36: VOLUME's whole next state is `exec_volume`, and its clamp is the case distinction of
`min_volMax`. -/
theorem volumeStoresTheClampedParam : Obligations.VolumeStoresTheClampedParam := by
  intro s ch p
  rw [exec_volume, min_volMax, countCommand]

end Sys2Proof

/-! ## The end of a buffer's drain with no full buffer to swap in (44_output_driver.md R305, R307) -/

namespace Sys2Proof.Machine

@[simp] theorem chanOfNat_toNat (ch : Chan) : chanOfNat ch.toNat = some ch := by
  cases ch <;> rfl

/-- DRAIN_COMPLETE of a channel that exists: the gate of R305, then the swap (R306) or the underrun (R307). -/
theorem exec_drainComplete (ch : Chan) (s : State) :
    exec (.drainComplete ch.toNat) s =
      if (s.chan ch).isPlaying = true ∧ (s.chan ch).outState = .running then
        if (s.chan ch).fillIndex = Config.cap then .next (drainSwap ch s).endEvent
        else .next (drainUnderrun ch s).endEvent
      else .next s.endEvent := by
  simp only [exec, execDrainComplete, chanOfNat_toNat]

/-- An underrun has its counter in its channel, so recording one is its diagnostic alone (R401). -/
theorem record_underrun (info : Option Nat) (s : State) :
    record .underrun info s = emit (.diag .underrun info) s := rfl

/-- The actions of a state and its channels are separate parts. -/
theorem emit_setChan (a : Action) (ch : Chan) (c : Channel) (s : State) :
    emit a (s.setChan ch c) = (emit a s).setChan ch c := by
  cases ch <;> rfl

/-- The underrun path writes one channel and appends one diagnostic. -/
theorem drainUnderrun_eq (ch : Chan) (s : State) :
    drainUnderrun ch s = (emit (.diag .underrun (some ch.toNat)) s).setChan ch
      { s.chan ch with underrun := true, underruns := (s.chan ch).underruns + 1 } := by
  rw [drainUnderrun, record_underrun, emit_setChan]

end Sys2Proof.Machine

namespace Sys2Proof

open Machine

/-- Settles O43: past the gate, an index below the capacity selects the underrun path of `exec_drainComplete`,
and `drainUnderrun_eq` is its whole effect. -/
theorem drainCompleteFlagsAnUnderrun : Obligations.DrainCompleteFlagsAnUnderrun := by
  intro s ch hplaying hrunning hindex
  have hnotFull : (s.chan ch).fillIndex ≠ Config.cap := Nat.ne_of_lt hindex
  rw [exec_drainComplete, if_pos ⟨hplaying, hrunning⟩, if_neg hnotFull, drainUnderrun_eq, emit]

end Sys2Proof

/-! ## The ready function (45_flow_controller.md R340) -/

namespace Sys2Proof.Machine

/-- While any channel plays, a full fill buffer does not hold the source back: it is refilled within the period of
the active one. -/
theorem flow_of_anyPlaying {s : State} (h : s.anyPlaying = true) : flow s = true :=
  if_pos h

/-- Before playback nothing drains a buffer, so each of the two must have room. -/
theorem flow_iff_of_not_anyPlaying {s : State} (h : s.anyPlaying = false) :
    flow s = true ↔ s.c0.fillIndex < Config.cap ∧ s.c1.fillIndex < Config.cap := by
  have hnot : ¬ (s.c0.isPlaying || s.c1.isPlaying) = true := Bool.eq_false_iff.mp h
  rw [flow, if_neg hnot, Bool.and_eq_true, decide_eq_true_iff, decide_eq_true_iff]

end Sys2Proof.Machine

namespace Sys2Proof

open Machine

/-- Settles O44: its two cases are those of `anyPlaying`, each with its own equation for `flow`. -/
theorem readyFollowsTheTruthTable : Obligations.ReadyFollowsTheTruthTable := by
  intro s
  constructor
  · intro hplaying
    exact flow_of_anyPlaying ((Bool.or_eq_true _ _).mpr hplaying)
  · intro h0 h1
    have hidle : s.anyPlaying = false := Bool.or_eq_false_iff.mpr ⟨h0, h1⟩
    exact flow_iff_of_not_anyPlaying hidle

end Sys2Proof

/-! ## Decoding and encoding frames (30_encoding.md R111 to R122, 42_parser.md R230 to R237) -/

namespace Sys2Proof

/-! ### The decoder, branch by branch -/

theorem decode_runt {bs : List Byte} (hlen : bs.length < 4) : decode bs = .error (.runt bs.length) :=
  if_pos hlen

theorem decode_badHeader {bs : List Byte} (hlen : 4 ≤ bs.length) (hcommand : byteAt bs 0 ≠ 0xC0)
    (hdata : byteAt bs 0 ≠ 0xDA) : decode bs = .error (.badHeader (byteAt bs 0)) := by
  rw [decode, if_neg (Nat.not_lt.mpr hlen), if_neg hcommand, if_neg hdata]

theorem decode_command {bs : List Byte} (hlen : 4 ≤ bs.length) (hheader : byteAt bs 0 = 0xC0) :
    decode bs = decodeCommand bs := by
  rw [decode, if_neg (Nat.not_lt.mpr hlen), if_pos hheader]

theorem decode_data {bs : List Byte} (hlen : 4 ≤ bs.length) (hheader : byteAt bs 0 = 0xDA) :
    decode bs = decodeData bs := by
  have hnot : byteAt bs 0 ≠ 0xC0 := by rw [hheader]; decide
  rw [decode, if_neg (Nat.not_lt.mpr hlen), if_neg hnot, if_pos hheader]

theorem decodeCommand_short {bs : List Byte} (hlen : bs.length < 5) :
    decodeCommand bs = .error (.cmdShort bs.length) :=
  if_pos hlen

theorem decodeCommand_badChannel {bs : List Byte} (hlen : 5 ≤ bs.length) (hch : 1 < (byteAt bs 1).toNat) :
    decodeCommand bs = .error (.badChannel (byteAt bs 1)) := by
  rw [decodeCommand, if_neg (Nat.not_lt.mpr hlen), ofByte_none.mpr hch]

theorem decodeCommand_code {bs : List Byte} {ch : Chan} (hlen : 5 ≤ bs.length)
    (hch : Chan.ofByte (byteAt bs 1) = some ch) :
    decodeCommand bs = decodeCode ch (byteAt bs 2) (u16be (byteAt bs 3) (byteAt bs 4)) := by
  rw [decodeCommand, if_neg (Nat.not_lt.mpr hlen), hch]

theorem decodeData_badCount {bs : List Byte} (hcount : sampleCount bs = 0 ∨ 2048 < sampleCount bs) :
    decodeData bs = .error (.badCount (sampleCount bs)) :=
  if_pos hcount

theorem count_legal {n : Nat} (hpos : 1 ≤ n) (hcap : n ≤ 2048) : ¬ (n = 0 ∨ n > Config.cap) :=
  not_or_intro (Nat.ne_of_gt hpos) (Nat.not_lt.mpr hcap)

theorem decodeData_short {bs : List Byte} (hpos : 1 ≤ sampleCount bs) (hcap : sampleCount bs ≤ 2048)
    (hlen : bs.length < 4 + 2 * sampleCount bs) : decodeData bs = .error (.dataShort bs.length) := by
  rw [decodeData, if_neg (count_legal hpos hcap), if_pos hlen]

theorem decodeData_badChannel {bs : List Byte} (hpos : 1 ≤ sampleCount bs) (hcap : sampleCount bs ≤ 2048)
    (hlen : 4 + 2 * sampleCount bs ≤ bs.length) (hch : 1 < (byteAt bs 1).toNat) :
    decodeData bs = .error (.badChannel (byteAt bs 1)) := by
  rw [decodeData, if_neg (count_legal hpos hcap), if_neg (Nat.not_lt.mpr hlen), ofByte_none.mpr hch]

theorem decodeData_ok {bs : List Byte} {ch : Chan} (hpos : 1 ≤ sampleCount bs) (hcap : sampleCount bs ≤ 2048)
    (hlen : 4 + 2 * sampleCount bs ≤ bs.length) (hch : Chan.ofByte (byteAt bs 1) = some ch) :
    decodeData bs = .ok (.data ch (decodeSamples (sampleCount bs) (bs.drop 4))) := by
  rw [decodeData, if_neg (count_legal hpos hcap), if_neg (Nat.not_lt.mpr hlen), hch]

theorem decodeCode_badCommand {c : Byte} (h1 : c ≠ 0x01) (h2 : c ≠ 0x02) (h3 : c ≠ 0x03) (hFF : c ≠ 0xFF)
    (ch : Chan) (p : Half) : decodeCode ch c p = .error (.badCommand c) := by
  rw [decodeCode, if_neg h1, if_neg h2, if_neg h3, if_neg hFF]

/-- A channel byte names a channel exactly when it is 0 or 1 (R114). -/
theorem exists_ofByte_iff {b : Byte} : (∃ ch, Chan.ofByte b = some ch) ↔ b.toNat ≤ 1 := by
  rw [← Option.ne_none_iff_exists', Ne, ofByte_none, Nat.not_lt]

theorem sampleCount_eq (bs : List Byte) :
    sampleCount bs = 256 * (byteAt bs 2).toNat + (byteAt bs 3).toNat :=
  u16be_toNat _ _

/-! ### Encoding, then decoding -/

/-- A Command frame carries its channel, its code and its operand through the decoder, whatever follows it. -/
theorem decode_encodeCommand (ch : Chan) (c : Byte) (p : Half) (extra : List Byte) :
    decode (encodeCommand ch c p ++ extra) = decodeCode ch c p := by
  have hlen : 5 ≤ (encodeCommand ch c p ++ extra).length := by simp [encodeCommand]
  rw [decode_command (by omega) rfl, decodeCommand_code hlen (ofByte_toByte ch)]
  exact congrArg (decodeCode ch c) (u16be_hi_lo p)

theorem sampleCount_encodeData (ch : Chan) {xs : List Half} (hcap : xs.length ≤ 2048) (extra : List Byte) :
    sampleCount (encodeData ch xs ++ extra) = xs.length := by
  have hcount : sampleCount (encodeData ch xs ++ extra) = (BitVec.ofNat 16 xs.length).toNat :=
    congrArg BitVec.toNat (u16be_hi_lo _)
  rw [hcount, BitVec.toNat_ofNat]
  exact Nat.mod_eq_of_lt (by omega)

/-- A Data frame of a legal count carries its channel and its samples through the decoder, whatever follows it. -/
theorem decode_encodeData (ch : Chan) {xs : List Half} (hpos : 1 ≤ xs.length) (hcap : xs.length ≤ 2048)
    (extra : List Byte) : decode (encodeData ch xs ++ extra) = .ok (.data ch xs) := by
  have hcount := sampleCount_encodeData ch hcap extra
  have hlen : 4 + 2 * xs.length ≤ (encodeData ch xs ++ extra).length := by
    simp only [encodeData, List.length_append, encodeSamples_length, List.length_cons, List.length_nil]
    omega
  have hpayload : (encodeData ch xs ++ extra).drop 4 = encodeSamples xs ++ extra := rfl
  have hch : Chan.ofByte (byteAt (encodeData ch xs ++ extra) 1) = some ch := ofByte_toByte ch
  rw [decode_data (by omega) rfl,
    decodeData_ok (by rwa [hcount]) (by rwa [hcount]) (by rwa [hcount]) hch,
    hcount, hpayload, decodeSamples_encode]

/-- Settles O1: the four Command frames by `decode_encodeCommand`, the Data frame by `decode_encodeData`, whose
payload is `decodeSamples_encode`'s induction; an event has no encoding. -/
theorem decodeOfEncodeWithTrailingBytes : Obligations.DecodeOfEncodeWithTrailingBytes := by
  intro i bs extra hwf henc
  cases i with
  | play ch p => cases henc; exact decode_encodeCommand ch _ p extra
  | stop ch p => cases henc; exact decode_encodeCommand ch _ p extra
  | volume ch p => cases henc; exact decode_encodeCommand ch _ p extra
  | reset ch p => cases henc; exact decode_encodeCommand ch _ p extra
  | data ch xs =>
    cases henc
    obtain ⟨hpos, hcap⟩ : 1 ≤ xs.length ∧ xs.length ≤ 2048 := by simpa [Instr.wf] using hwf
    exact decode_encodeData ch hpos hcap extra
  | _ => cases henc

/-- Settles O6: each of the five spans is the encoding of its operation, so this is O1 with nothing after it. -/
theorem writtenOutFramesDecode : Obligations.WrittenOutFramesDecode :=
  have roundTrip := decodeOfEncodeWithTrailingBytes
  ⟨roundTrip (.play .ch0 0) _ [] rfl rfl, roundTrip (.stop .ch1 0) _ [] rfl rfl,
    roundTrip (.volume .ch1 300) _ [] rfl rfl, roundTrip (.reset .ch0 0) _ [] rfl rfl,
    roundTrip (.data .ch1 [0x7FFF, 0x8000, 0xFFFF]) _ [] rfl rfl⟩

/-! ### Decoding, then encoding -/

/-- The bytes of a Command frame, put together again from the channel and the operand read from them. -/
theorem span_eq_encodeCommand {bs : List Byte} {ch : Chan} (hlen : 5 ≤ bs.length) (hheader : byteAt bs 0 = 0xC0)
    (hch : Chan.ofByte (byteAt bs 1) = some ch) :
    bs = encodeCommand ch (byteAt bs 2) (u16be (byteAt bs 3) (byteAt bs 4)) ++ bs.drop 5 := by
  rw [encodeCommand, hiByte_u16be, loByte_u16be, ofByte_some hch, ← hheader]
  exact span5 hlen

/-- The bytes of a Data frame, put together again from the channel and the samples read from them. -/
theorem span_eq_encodeData {bs : List Byte} {ch : Chan} (hlen : 4 + 2 * sampleCount bs ≤ bs.length)
    (hheader : byteAt bs 0 = 0xDA) (hch : Chan.ofByte (byteAt bs 1) = some ch) :
    bs = encodeData ch (decodeSamples (sampleCount bs) (bs.drop 4)) ++ (bs.drop 4).drop (2 * sampleCount bs) := by
  obtain ⟨hcount, hpayload⟩ := encode_decodeSamples (sampleCount bs) (bs.drop 4) (by rw [List.length_drop]; omega)
  have hfield : BitVec.ofNat 16 (sampleCount bs) = u16be (byteAt bs 2) (byteAt bs 3) := BitVec.ofNat_toNat _ _
  rw [encodeData, hcount, hpayload, hfield, hiByte_u16be, loByte_u16be, ofByte_some hch, ← hheader,
    List.append_assoc, List.take_append_drop]
  exact span4 (by omega)

/-- Settles O2: by the two ways a span decodes; each frame's bytes are put together again from what was read. -/
theorem decodedSpanBeginsWithItsEncoding : Obligations.DecodedSpanBeginsWithItsEncoding := by
  intro bs i h
  rcases decode_cases h with ⟨hlen, hheader, ch, hch, hcode⟩ | ⟨hheader, hpos, hcap, hlen, ch, hch, rfl⟩
  case inl =>
    have hspan := span_eq_encodeCommand hlen hheader hch
    rcases decodeCode_cases hcode with ⟨hc, rfl⟩ | ⟨hc, rfl⟩ | ⟨hc, rfl⟩ | ⟨hc, rfl⟩ <;> rw [hc] at hspan <;>
      exact ⟨rfl, rfl, _, _, rfl, hspan⟩
  case inr =>
    have hcount := decode_data_length h
    refine ⟨?_, rfl, _, _, rfl, span_eq_encodeData hlen hheader hch⟩
    simp only [Instr.wf, hcount, Bool.and_eq_true, decide_eq_true_eq]
    exact ⟨hpos, hcap⟩

/-! ### The opcode rows -/

/-- Two words are equal exactly when their parts are. -/
theorem append_eq_append_iff {m n : Nat} {a a' : BitVec m} {b b' : BitVec n} :
    a ++ b = a' ++ b' ↔ a = a' ∧ b = b' := by
  refine ⟨fun h => ⟨?_, ?_⟩, fun ⟨ha, hb⟩ => by rw [ha, hb]⟩
  · simpa only [BitVec.extractLsb'_append_eq_left] using congrArg (BitVec.extractLsb' n m) h
  · simpa only [BitVec.extractLsb'_append_eq_right] using congrArg (BitVec.extractLsb' 0 n) h

/-- The channel byte's mask in R121 lets through 0 and 1. -/
theorem and_channelMask_eq_zero_iff (b : Byte) : b &&& 0xFE = 0 ↔ b.toNat ≤ 1 := by
  revert b; decide

/-- The mask of R121's Command rows keeps the header, the channel byte's upper bits and the code. -/
theorem and_commandMask_iff (b0 b1 b2 b3 b4 code : Byte) :
    (b0 ++ b1 ++ b2 ++ b3 ++ b4) &&& (0xFF#8 ++ 0xFE#8 ++ 0xFF#8 ++ 0#8 ++ 0#8) =
        0xC0#8 ++ 0#8 ++ code ++ 0#8 ++ 0#8 ↔
      b0 = 0xC0 ∧ b1.toNat ≤ 1 ∧ b2 = code := by
  have hones (b : Byte) : b &&& 0xFF#8 = b := BitVec.and_allOnes
  simp only [BitVec.and_append, append_eq_append_iff, hones, BitVec.and_zero, and_true, and_assoc]
  exact and_congr_right' (and_congr_left' (and_channelMask_eq_zero_iff b1))

/-- The mask of R121's Data row keeps the header and the channel byte's upper bits. -/
theorem and_dataMask_iff (b0 b1 b2 b3 : Byte) :
    (b0 ++ b1 ++ b2 ++ b3) &&& (0xFF#8 ++ 0xFE#8 ++ 0#8 ++ 0#8) = 0xDA#8 ++ 0#8 ++ 0#8 ++ 0#8 ↔
      b0 = 0xDA ∧ b1.toNat ≤ 1 := by
  have hones (b : Byte) : b &&& 0xFF#8 = b := BitVec.and_allOnes
  simp only [BitVec.and_append, append_eq_append_iff, hones, BitVec.and_zero, and_true]
  exact and_congr_right' (and_channelMask_eq_zero_iff b1)

theorem matchesCommandRow_iff (code : Byte) (bs : List Byte) :
    matchesCommandRow (0xC0#8 ++ 0#8 ++ code ++ 0#8 ++ 0#8) bs = true ↔
      5 ≤ bs.length ∧ byteAt bs 0 = 0xC0 ∧ (byteAt bs 1).toNat ≤ 1 ∧ byteAt bs 2 = code := by
  rw [matchesCommandRow, Bool.and_eq_true, decide_eq_true_iff, decide_eq_true_iff]
  exact and_congr_right' (and_commandMask_iff _ _ _ _ _ _)

theorem matchesDataRow_iff (bs : List Byte) :
    matchesDataRow bs = true ↔
      (byteAt bs 0 = 0xDA ∧ (byteAt bs 1).toNat ≤ 1) ∧ 1 ≤ sampleCount bs ∧ sampleCount bs ≤ 2048 ∧
        4 + 2 * sampleCount bs ≤ bs.length := by
  simp only [matchesDataRow, Bool.and_eq_true, decide_eq_true_iff]
  exact and_congr_left' (and_dataMask_iff _ _ _ _)

theorem decodeCode_play_iff {ch ch' : Chan} {c : Byte} {p p' : Half} :
    decodeCode ch c p = .ok (.play ch' p') ↔ c = 0x01 ∧ ch' = ch ∧ p' = p :=
  ⟨fun h => by simpa using decodeCode_cases h, by rintro ⟨rfl, rfl, rfl⟩; rfl⟩

theorem decodeCode_stop_iff {ch ch' : Chan} {c : Byte} {p p' : Half} :
    decodeCode ch c p = .ok (.stop ch' p') ↔ c = 0x02 ∧ ch' = ch ∧ p' = p :=
  ⟨fun h => by simpa using decodeCode_cases h, by rintro ⟨rfl, rfl, rfl⟩; rfl⟩

theorem decodeCode_volume_iff {ch ch' : Chan} {c : Byte} {p p' : Half} :
    decodeCode ch c p = .ok (.volume ch' p') ↔ c = 0x03 ∧ ch' = ch ∧ p' = p :=
  ⟨fun h => by simpa using decodeCode_cases h, by rintro ⟨rfl, rfl, rfl⟩; rfl⟩

theorem decodeCode_reset_iff {ch ch' : Chan} {c : Byte} {p p' : Half} :
    decodeCode ch c p = .ok (.reset ch' p') ↔ c = 0xFF ∧ ch' = ch ∧ p' = p :=
  ⟨fun h => by simpa using decodeCode_cases h, by rintro ⟨rfl, rfl, rfl⟩; rfl⟩

/-- A command whose code is `code` is decoded from exactly the spans that match that code's row. -/
theorem exists_decode_command_iff {code : Byte} {command : Chan → Half → Instr}
    (hcode : ∀ {ch c p ch' p'}, decodeCode ch c p = .ok (command ch' p') ↔ c = code ∧ ch' = ch ∧ p' = p)
    (hnoData : ∀ {ch p ch' xs}, command ch p ≠ .data ch' xs) (bs : List Byte) :
    (∃ ch p, decode bs = .ok (command ch p)) ↔
      matchesCommandRow (0xC0#8 ++ 0#8 ++ code ++ 0#8 ++ 0#8) bs = true := by
  rw [matchesCommandRow_iff]
  constructor
  · rintro ⟨ch, p, h⟩
    rcases decode_cases h with ⟨hlen, hheader, ch', hch, hc⟩ | ⟨_, _, _, _, _, _, hdata⟩
    · exact ⟨hlen, hheader, exists_ofByte_iff.mp ⟨ch', hch⟩, (hcode.mp hc).1⟩
    · exact absurd hdata hnoData
  · rintro ⟨hlen, hheader, hch, hc⟩
    obtain ⟨ch, hch⟩ := exists_ofByte_iff.mpr hch
    refine ⟨ch, u16be (byteAt bs 3) (byteAt bs 4), ?_⟩
    rw [decode_command (by omega) hheader, decodeCommand_code hlen hch]
    exact hcode.mpr ⟨hc, rfl, rfl⟩

theorem exists_decode_data_iff (bs : List Byte) :
    (∃ ch xs, decode bs = .ok (.data ch xs)) ↔ matchesDataRow bs = true := by
  rw [matchesDataRow_iff]
  constructor
  · rintro ⟨ch, xs, h⟩
    rcases decode_cases h with ⟨_, _, _, _, hc⟩ | ⟨hheader, hpos, hcap, hlen, ch', hch, _⟩
    · rcases decodeCode_cases hc with ⟨_, h⟩ | ⟨_, h⟩ | ⟨_, h⟩ | ⟨_, h⟩ <;> cases h
    · exact ⟨⟨hheader, exists_ofByte_iff.mp ⟨ch', hch⟩⟩, hpos, hcap, hlen⟩
  · rintro ⟨⟨hheader, hch⟩, hpos, hcap, hlen⟩
    obtain ⟨ch, hch⟩ := exists_ofByte_iff.mpr hch
    exact ⟨ch, _, (decode_data (by omega) hheader).trans (decodeData_ok hpos hcap hlen hch)⟩

/-- Settles O3: a row and the decoder's branch for it ask for the same bytes. -/
theorem decodeAgreesWithOpcodeRows : Obligations.DecodeAgreesWithOpcodeRows := fun bs =>
  ⟨exists_decode_command_iff decodeCode_play_iff nofun bs, exists_decode_command_iff decodeCode_stop_iff nofun bs,
    exists_decode_command_iff decodeCode_volume_iff nofun bs,
    exists_decode_command_iff decodeCode_reset_iff nofun bs, exists_decode_data_iff bs⟩

/-! ### The order of the checks -/

/-- Settles O5: each class is one branch of the decoder, with the sample count read as in R86. -/
theorem invalidSpansAreRejectedInCheckOrder : Obligations.InvalidSpansAreRejectedInCheckOrder := by
  intro bs
  dsimp only
  rw [← sampleCount_eq]
  refine ⟨decode_runt, decode_badHeader, ?cmdShort, ?cmdChannel, ?badCommand, ?badCount, ?dataShort, ?dataChannel⟩
  case cmdShort =>
    intro hlen hheader
    rw [decode_command (by omega) hheader, decodeCommand_short (by omega), hlen]
  case cmdChannel =>
    intro hlen hheader hch
    rw [decode_command (by omega) hheader, decodeCommand_badChannel hlen hch]
  case badCommand =>
    intro hlen hheader hch h1 h2 h3 hFF
    obtain ⟨ch, hch⟩ := exists_ofByte_iff.mpr hch
    rw [decode_command (by omega) hheader, decodeCommand_code hlen hch, decodeCode_badCommand h1 h2 h3 hFF]
  case badCount =>
    intro hlen hheader hcount
    rw [decode_data hlen hheader, decodeData_badCount hcount]
  case dataShort =>
    intro hlen hheader hpos hcap hshort
    rw [decode_data hlen hheader, decodeData_short hpos hcap hshort]
  case dataChannel =>
    intro hheader hpos hcap hlen hch
    rw [decode_data (by omega) hheader, decodeData_badChannel hpos hcap hlen hch]

end Sys2Proof

/-! ## The receiver's events (41_frame_receiver.md R191 to R197) -/

namespace Sys2Proof.Machine

/-- SEL_ASSERT in IDLE: the arming attempt, RX_ARM where it succeeded, and a new capture (R191). -/
theorem exec_selAssert_idle {s : State} (hidle : s.rx.state = .idle) :
    exec .selAssert s =
      let armed := (armEngine s).1
      let e := if armed then emit (.rxArm Config.landSize) (armEngine s).2 else (armEngine s).2
      .next { e with rx := { e.rx with count := 0, armed := armed, state := .capturing } }.endEvent := by
  simp only [exec, execSelAssert, hidle]

theorem exec_selAssert_capturing {s : State} (hcapturing : s.rx.state = .capturing) :
    exec .selAssert s = .next s.endEvent := by
  simp only [exec, execSelAssert, hcapturing]

theorem exec_selDeassert_idle {s : State} (hidle : s.rx.state = .idle) :
    exec .selDeassert s = .next s.endEvent := by
  simp only [exec, execSelDeassert, hidle]

theorem exec_selDeassert_unarmed {s : State} (hcapturing : s.rx.state = .capturing) (harmed : s.rx.armed = false) :
    exec .selDeassert s = .next (closeCapture s).endEvent := by
  simp only [exec, execSelDeassert, hcapturing, harmed, Bool.false_eq_true, if_false]

theorem exec_rxByte_dropped {s : State} {b : Nat} (hb : b < 256)
    (hdrop : ¬ (s.rx.state = .capturing ∧ s.rx.armed = true ∧ s.rx.count < Config.landSize)) :
    exec (.rxByte b) s = .next s.endEvent := by
  simp only [exec, execRxByte]
  rw [if_pos hb, if_neg hdrop]

theorem exec_rxByte_refused {b : Nat} (hb : 256 ≤ b) (s : State) :
    exec (.rxByte b) s = .refused .operandOutOfRange :=
  if_neg (Nat.not_lt.mpr hb)

/-- RX_ERROR by its one draw (R195). -/
theorem exec_rxError (s : State) :
    exec .rxError s = .next (State.endEvent { s with
      rx := { s.rx with armed := false }
      env := s.env.afterDraw
      stats :=
        if s.answer = .quiet then s.stats.inc .transportFaults
        else (s.stats.inc .transportFaults).inc .transportFaults
      trace := s.trace ++ [.diag .rxError none, .rxForceReset] ++
        if s.answer = .quiet then [] else [.diag .rxPollTimeout none] }) := by
  simp only [exec, execRxError, rxPoll_spec, answer_emit, answer_record]
  rcases answer_cases s with h | h <;>
    simp [h, record, emit, ErrorStats.count, ErrorCode.counter]

/-- Two counted faults are two more (R16). -/
theorem inc_inc_transportFaults (e : ErrorStats) :
    (e.inc .transportFaults).inc .transportFaults = { e with transportFaults := e.transportFaults + 2 } := by
  simp only [ErrorStats.inc, BitVec.add_assoc]
  rfl

end Sys2Proof.Machine

namespace Sys2Proof

open Machine

/-- Settles O14: the three outcomes of `armEngine_spec`. -/
theorem selAssertArmsTheReceiver : Obligations.SelAssertArmsTheReceiver := by
  intro s hidle
  rw [exec_selAssert_idle hidle, armEngine_spec]
  refine ⟨fun hquiet => ?_, fun hadverse hquiet => ?_, fun hadverse hadverse' => ?_⟩
  · simp [hquiet, emit, State.drawn]
  · simp [hadverse, hquiet, emit, ErrorStats.inc]
  · simp [hadverse, hadverse', inc_inc_transportFaults]

/-- Settles O15: each edge where the receiver's state does not expect it. -/
theorem straySelectEdgesAreIgnored : Obligations.StraySelectEdgesAreIgnored := fun _ =>
  ⟨exec_selAssert_capturing, exec_selDeassert_idle⟩

/-- Settles O17: each of the three conditions fails the guard of R193. -/
theorem byteOutsideACaptureIsDropped : Obligations.ByteOutsideACaptureIsDropped := by
  intro s b hb hoff
  refine exec_rxByte_dropped hb fun ⟨hcapturing, harmed, hroom⟩ => ?_
  rcases hoff with hidle | hunarmed | hfull
  · exact absurd (hidle.symm.trans hcapturing) nofun
  · exact absurd (hunarmed.symm.trans harmed) nofun
  · exact absurd hroom (Nat.not_lt.mpr hfull)

/-- Settles O18: the two values of the draw in `exec_rxError`. -/
theorem receiveErrorAbandonsTheFrame : Obligations.ReceiveErrorAbandonsTheFrame := by
  intro s
  rw [exec_rxError]
  refine ⟨fun hquiet => ?_, fun hadverse => ?_⟩
  · simp [hquiet, ErrorStats.inc]
  · simp [hadverse, inc_inc_transportFaults]

/-- Settles O19: with the receiver not armed, `closeCapture` draws nothing (`closeCapture_unarmed`). -/
theorem unarmedCaptureIsClosedUnparsed : Obligations.UnarmedCaptureIsClosedUnparsed := by
  intro s hcapturing harmed
  rw [exec_selDeassert_unarmed hcapturing harmed, closeCapture_unarmed harmed]
  simp only [harmed]

/-- Settles O20: the frame runs at the closed capture, which `closeCapture_armed` gives by its draw. -/
theorem deassertRunsTheDecodedFrame : Obligations.DeassertRunsTheDecodedFrame := by
  intro s i hcapturing harmed hdecode
  rw [execSelDeassert_ok hcapturing harmed hdecode, closeCapture_armed harmed]
  refine ⟨fun hquiet => ?_, fun hadverse => ?_⟩
  · simp [hquiet]
  · simp [hadverse, ErrorStats.inc]

/-- Settles O21: the rejection is raised at the closed capture, and R402 gives each kind its counter. -/
theorem droppedFrameChangesOneCounter : Obligations.DroppedFrameChangesOneCounter := by
  intro s r hcapturing harmed hdecode
  rw [execSelDeassert_error hcapturing harmed hdecode, closeCapture_armed harmed]
  rcases answer_cases s with hanswer | hanswer <;> cases r <;>
    simp [hanswer, raiseReject, record, emit, rejectCode, rejectInfo, ErrorStats.count, ErrorCode.counter,
      ErrorStats.inc]

end Sys2Proof

/-! ## Operands out of range, and the status window (10_state.md R58 to R62, 46_status_control.md R360 to R363) -/

namespace Sys2Proof.Machine

theorem chanOfNat_eq_none {n : Nat} (hn : 2 ≤ n) : chanOfNat n = none := by
  match n, hn with
  | _ + 2, _ => rfl

/-- The engine numbers of R131 are those of the two channels. -/
theorem exists_toNat_eq {n : Nat} (hn : n < 2) : ∃ ch : Chan, ch.toNat = n := by
  match n, hn with
  | 0, _ => exact ⟨.ch0, rfl⟩
  | 1, _ => exact ⟨.ch1, rfl⟩

theorem exec_drainHalf (ch : Chan) (s : State) : exec (.drainHalf ch.toNat) s = .next s.endEvent := by
  simp only [exec, execDrainHalf, chanOfNat_toNat]

theorem exec_drainHalf_refused {n : Nat} (hn : 2 ≤ n) (s : State) :
    exec (.drainHalf n) s = .refused .operandOutOfRange := by
  simp only [exec, execDrainHalf, chanOfNat_eq_none hn]

theorem exec_drainComplete_refused {n : Nat} (hn : 2 ≤ n) (s : State) :
    exec (.drainComplete n) s = .refused .operandOutOfRange := by
  simp only [exec, execDrainComplete, chanOfNat_eq_none hn]

/-- STATUS_READ of an aligned word answers the window's word, and U22's fault is never met. -/
theorem exec_statusRead_word {off : Nat} (hoff : off ≤ 0x7C) (haligned : off % 4 = 0) (s : State) :
    exec (.statusRead off .word) s =
      .next (State.endEvent { s with readData := some (windowWord s (windowReg off)) }) := by
  simp only [exec, execStatusRead, outStateReservedIn_windowWord]
  rw [if_pos hoff, if_pos ⟨haligned, trivial⟩]
  rfl

theorem exec_statusRead_unaligned {off : Nat} {size : AccessSize} (hoff : off ≤ 0x7C)
    (hunaligned : ¬ (off % 4 = 0 ∧ size = .word)) (s : State) :
    exec (.statusRead off size) s = .refused .notAnAlignedWord := by
  simp only [exec, execStatusRead]
  rw [if_pos hoff, if_neg hunaligned]

theorem exec_statusRead_refused {off : Nat} (hoff : 0x7C < off) (size : AccessSize) (s : State) :
    exec (.statusRead off size) s = .refused .operandOutOfRange :=
  if_neg (Nat.not_le.mpr hoff)

/-- CTRL_WRITE of an aligned word: the counter reset where it is CTRL with bit 0 set, and otherwise nothing. -/
theorem exec_ctrlWrite_word {off v : Nat} (hoff : off ≤ 0x7C) (hv : v < 2 ^ 32) (haligned : off % 4 = 0)
    (s : State) :
    exec (.ctrlWrite off .word v) s =
      .next (if off = 0x60 ∧ v % 2 = 1 then clearCounters s else s).endEvent := by
  have hctrl : (windowReg off = .ctrl ∧ v.testBit 0 = true) ↔ (off = 0x60 ∧ v % 2 = 1) := by
    rw [windowReg_ctrl, Nat.testBit_zero, decide_eq_true_iff]
  simp only [exec, execCtrlWrite, hctrl]
  rw [if_pos ⟨hoff, hv⟩, if_pos ⟨haligned, trivial⟩]
  split <;> rfl

theorem exec_ctrlWrite_unaligned {off v : Nat} {size : AccessSize} (hoff : off ≤ 0x7C) (hv : v < 2 ^ 32)
    (hunaligned : ¬ (off % 4 = 0 ∧ size = .word)) (s : State) :
    exec (.ctrlWrite off size v) s = .refused .notAnAlignedWord := by
  simp only [exec, execCtrlWrite]
  rw [if_pos ⟨hoff, hv⟩, if_neg hunaligned]

theorem exec_ctrlWrite_refused {off v : Nat} (hrange : ¬ (off ≤ 0x7C ∧ v < 2 ^ 32)) (size : AccessSize)
    (s : State) : exec (.ctrlWrite off size v) s = .refused .operandOutOfRange :=
  if_neg hrange

/-- The words from 0x60 up are CTRL and reserved ones, and read 0 (R58, R62). -/
theorem windowWord_from_ctrl {off : Nat} (hlow : 0x60 ≤ off) (s : State) : windowWord s (windowReg off) = 0 := by
  have hreg : windowReg off = .ctrl ∨ windowReg off = .reserved := by
    unfold windowReg
    repeat rw [if_neg (by omega)]
    split
    · exact .inl rfl
    · exact .inr rfl
  rcases hreg with h | h <;> rw [h] <;> rfl

end Sys2Proof.Machine

namespace Sys2Proof

open Machine

/-- Settles O40: the engine number names a channel, and nothing follows from the event. -/
theorem drainHalfIsInformational : Obligations.DrainHalfIsInformational := by
  intro s n hn
  obtain ⟨ch, rfl⟩ := exists_toNat_eq hn
  exact exec_drainHalf ch s

/-- Settles O41: the gate of R305 in `exec_drainComplete` is closed. -/
theorem strayDrainCompleteIsIgnored : Obligations.StrayDrainCompleteIsIgnored := by
  intro s ch hstray
  have hgate : ¬ ((s.chan ch).isPlaying = true ∧ (s.chan ch).outState = .running) := by
    rintro ⟨hplaying, hrunning⟩
    rcases hstray with h | h
    · exact absurd (h.symm.trans hplaying) nofun
    · exact h hrunning
  rw [exec_drainComplete, if_neg hgate]

/-- Settles O46: `statusWord_getLsbD` at each bit. -/
theorem statusWordHasItsBits : Obligations.StatusWordHasItsBits := by
  intro s
  simp only [statusWord_getLsbD]
  refine ⟨by simp, by simp, by simp, by simp, fun k hk => ?_⟩
  simp [show k ≠ 0 by omega, show k ≠ 1 by omega, show k ≠ 2 by omega, show k ≠ 3 by omega]

/-- Settles O47: `chStatusWord_getLsbD` at each bit, and `chStatusWord_outState` for the field. -/
theorem channelStatusWordHasItsBits : Obligations.ChannelStatusWordHasItsBits := by
  intro c
  have hact : c.act.toBool = decide (c.act = .b1) := by cases c.act <;> rfl
  have hprebuf : c.prebufReady = decide (1024 ≤ c.fillIndex) := rfl
  refine ⟨?_, ?_, ?_, ?_, chStatusWord_outState c, fun k hk => ?_⟩ <;> rw [chStatusWord_getLsbD]
  · cases c.outState <;> simp
  · cases c.outState <;> simp
  · cases c.outState <;> simp [hprebuf]
  · cases c.outState <;> simp [hact]
  · have hbits : k ≠ 0 ∧ k ≠ 1 ∧ k ≠ 2 ∧ k ≠ 3 ∧ k ≠ 4 ∧ k ≠ 5 := by omega
    cases c.outState <;> simp [hbits]

/-- Settles O48: every offset is an aligned word of the window, and R58's map is evaluated at it. -/
theorem statusReadReturnsTheMappedWord : Obligations.StatusReadReturnsTheMappedWord := by
  intro s
  have reads (off : Nat) (hoff : off ≤ 0x7C := by decide) (haligned : off % 4 = 0 := by rfl) :=
    exec_statusRead_word hoff haligned s
  refine ⟨reads 0x00, reads 0x04, reads 0x08, reads 0x0C, reads 0x10, reads 0x14, reads 0x18, reads 0x1C, ?_, ?_⟩
  · rintro (_ | _)
    · exact ⟨reads 0x20, reads 0x24, reads 0x28, reads 0x2C, reads 0x30, reads 0x34, reads 0x38, reads 0x3C⟩
    · exact ⟨reads 0x40, reads 0x44, reads 0x48, reads 0x4C, reads 0x50, reads 0x54, reads 0x58, reads 0x5C⟩
  · intro off hlow hoff haligned
    rw [reads off hoff haligned, windowWord_from_ctrl hlow]

/-- Settles O49: `exec_ctrlWrite_word` at CTRL with bit 0 set. -/
theorem counterResetClearsOnlyCounters : Obligations.CounterResetClearsOnlyCounters := by
  intro s v hv hodd
  rw [exec_ctrlWrite_word (by decide) hv rfl, if_pos ⟨rfl, hodd⟩]
  rfl

/-- Settles O50: `exec_ctrlWrite_word` at any other offset, or with bit 0 clear. -/
theorem otherWindowWritesAreIgnored : Obligations.OtherWindowWritesAreIgnored := by
  intro s off v hoff haligned hv hother
  have hnot : ¬ (off = 0x60 ∧ v % 2 = 1) := by omega
  rw [exec_ctrlWrite_word hoff hv haligned, if_neg hnot]

/-- Settles O51: the range holds, so the access is refused for its form. -/
theorem unalignedWindowAccessIsRefused : Obligations.UnalignedWindowAccessIsRefused := by
  intro s off v size hoff hv hunaligned
  have hnot : ¬ (off % 4 = 0 ∧ size = .word) := not_and_or.mpr hunaligned
  exact ⟨exec_statusRead_unaligned hoff hnot s, exec_ctrlWrite_unaligned hoff hv hnot s⟩

/-- Settles O52: one refusal for each operand of R131. -/
theorem outOfRangeOperandIsRefused : Obligations.OutOfRangeOperandIsRefused := fun s =>
  ⟨fun _ hb => exec_rxByte_refused hb s, fun _ hn => ⟨exec_drainHalf_refused hn s, exec_drainComplete_refused hn s⟩,
    fun _ size hoff => exec_statusRead_refused hoff size s,
    fun _ size _ hrange => exec_ctrlWrite_refused (by omega) size s⟩

end Sys2Proof

/-! ## The commands (43_dispatcher.md R262 to R267, 44_output_driver.md R301 to R310) -/

namespace Sys2Proof.Machine

@[simp] theorem setChan_setChan (ch : Chan) (c c' : Channel) (s : State) :
    (s.setChan ch c).setChan ch c' = s.setChan ch c' := by
  cases ch <;> rfl

/-- swap, field by field (R154). -/
theorem swap_snd (c : Channel) :
    c.swap.2 = { c with
      act := if c.fillIndex = 2048 then c.act.other else c.act
      fillIndex := if c.fillIndex = 2048 then 0 else c.fillIndex
      swaps := if c.fillIndex = 2048 then c.swaps + 1 else c.swaps } := by
  rw [swap_spec]
  split <;> rfl

/-- The part of PLAY after the teardown: swap, mark the channel, start the clock and the engine (R262). -/
def playStart (ch : Chan) (s : State) : State :=
  outStart ch (clockEnsure (setUnderrun ch false (setPlaying ch true (swapChan ch s))))

theorem exec_play (ch : Chan) (p : Half) (s : State) :
    exec (.play ch p) s = .next (playStart ch (playTeardown ch (countCommand s))).endEvent := rfl

theorem playStart_spec (ch : Chan) (s : State) :
    playStart ch s = State.setChan { s with
      clkRunning := true
      env := s.env.afterDraw
      ext := Collaborators.setEngine
        { s.ext with clockPhase := if s.clkRunning = true then s.ext.clockPhase else none } ch
        (if s.answer = .quiet then .started else (s.ext.engine ch).failed)
      trace := s.trace ++ (if s.clkRunning = true then [] else [Action.clkStart]) ++
        [.outStart ch (s.chan ch).swap.2.act 2048] ++
        (if s.answer = .quiet then [] else [.diag .startFail (some ch.toNat), .outFallback ch]) } ch
      { (s.chan ch).swap.2 with
        isPlaying := true
        underrun := false
        outState := if s.answer = .quiet then .running else .fallback } := by
  have hanswer : (clockEnsure (setUnderrun ch false (setPlaying ch true (swapChan ch s)))).answer = s.answer :=
    answer_congr (by simp)
  rw [playStart, outStart_spec, hanswer, clockEnsure_spec]
  cases ch <;> rfl

/-- STOP's sequence of a playing channel, by its one draw (R302, R303, R310). -/
theorem stopChannel_spec (ch : Chan) (s : State) :
    stopChannel ch s = State.setChan { s with
      clkRunning := s.clkRunning && (s.chan ch.other).isPlaying
      env := s.env.afterDraw
      ext := s.ext.setEngine ch ((s.ext.engine ch).disabled s.answer)
      stats := if s.answer = .quiet then s.stats else s.stats.inc .transportFaults
      trace := s.trace ++ [Action.outDisable ch] ++
        (if s.answer = .quiet then [] else [.diag .outPollTimeout (some ch.toNat)]) ++
        (if s.clkRunning = true ∧ (s.chan ch.other).isPlaying = false then [.clkStop] else []) } ch
      { s.chan ch with isPlaying := false, outState := .off } := by
  rw [stopChannel, outDisable_spec, clockRelease_spec]
  cases ch <;> simp [setPlaying, State.setChan, Chan.other, and_comm] <;> congr

/-- The swap path of DRAIN_COMPLETE, by its one draw (R306). -/
theorem drainSwap_spec (ch : Chan) (s : State) :
    drainSwap ch s = State.setChan { s with
      env := s.env.afterDraw
      ext := s.ext.setEngine ch (if s.answer = .quiet then .started else (s.ext.engine ch).failed)
      trace := s.trace ++ [Action.outStart ch (s.chan ch).swap.2.act 2048] ++
        (if s.answer = .quiet then [] else [.diag .startFail (some ch.toNat), .outFallback ch]) } ch
      { (s.chan ch).swap.2 with
        underrun := false
        outState := if s.answer = .quiet then .running else .fallback } := by
  have hanswer : (setUnderrun ch false (swapChan ch s)).answer = s.answer := answer_congr (by simp)
  rw [drainSwap, outStart_spec, hanswer]
  cases ch <;> rfl

theorem playTeardown_idle {ch : Chan} {s : State} (hidle : (s.chan ch).isPlaying = false) :
    playTeardown ch s = s := by
  simp only [playTeardown, hidle, Bool.false_eq_true, if_false]

theorem playTeardown_playing {ch : Chan} {s : State} (hplaying : (s.chan ch).isPlaying = true) :
    playTeardown ch s = outDisable ch s :=
  if_pos hplaying

theorem stopIfPlaying_idle {ch : Chan} {s : State} (hidle : (s.chan ch).isPlaying = false) :
    stopIfPlaying ch s = s := by
  simp only [stopIfPlaying, hidle, Bool.false_eq_true, if_false]

theorem stopIfPlaying_playing {ch : Chan} {s : State} (hplaying : (s.chan ch).isPlaying = true) :
    stopIfPlaying ch s = stopChannel ch s :=
  if_pos hplaying

theorem exec_stop (ch : Chan) (p : Half) (s : State) :
    exec (.stop ch p) s = .next (stopIfPlaying ch (countCommand s)).endEvent := rfl

theorem exec_reset (ch : Chan) (p : Half) (s : State) :
    exec (.reset ch p) s =
      .next ((stopIfPlaying ch (countCommand s)).setChan ch
        ((stopIfPlaying ch (countCommand s)).chan ch).clear).endEvent := rfl

end Sys2Proof.Machine

namespace Sys2Proof

open Machine

/-- Settles O28: the two cases of `swap_spec`. -/
theorem swapActsOnlyOnAFullBuffer : Obligations.SwapActsOnlyOnAFullBuffer := by
  intro c
  refine ⟨fun hnotFull => ?_, fun hfull => ?_, other_ne c.act⟩
  · rw [swap_spec, if_neg hnotFull]
  · rw [swap_spec, if_pos hfull]

/-- Settles O31: `outputRead` at each output state, and `outputNow` is that reading at the drain position. -/
theorem outputPortReadsTheActiveBuffer : Obligations.OutputPortReadsTheActiveBuffer := by
  intro s ch k
  refine ⟨fun hrunning hk => ?_, fun hfallback => ?_, fun hoff => ?_, fun hposition => ?_⟩
  · rw [outputRead, hrunning]
    exact if_pos hk
  · rw [outputRead, hfallback]
  · rw [outputRead, hoff]
  · rw [outputNow, hposition]

/-- Settles O32: there is no session to tear down, and the rest of PLAY is `playStart_spec`. -/
theorem playStartsAStoppedChannel : Obligations.PlayStartsAStoppedChannel := by
  intro s ch p hidle
  have hidle' : ((countCommand s).chan ch).isPlaying = false := by rwa [chan_countCommand]
  rw [exec_play, playTeardown_idle hidle', playStart_spec]
  simp only [swap_snd, chan_countCommand, answer_countCommand]
  rfl

/-- Settles O33: `outDisable_spec`, then `playStart_spec`. -/
theorem playRestartsAPlayingChannel : Obligations.PlayRestartsAPlayingChannel := by
  intro s ch p hplaying
  have hplaying' : ((countCommand s).chan ch).isPlaying = true := by rwa [chan_countCommand]
  have htorn : (outDisable ch (countCommand s)).answer = s.drawn.answer :=
    answer_congr (by rw [outDisable_spec, setChan_env]; rfl)
  rw [exec_play, playTeardown_playing hplaying', playStart_spec, htorn, outDisable_spec]
  rcases answer_cases s with hanswer | hanswer <;>
    simp [swap_snd, hanswer, ErrorStats.inc] <;> cases ch <;> rfl

/-- Settles O34: `stopChannel_spec` after the command is counted. -/
theorem stopHaltsAPlayingChannel : Obligations.StopHaltsAPlayingChannel := by
  intro s ch p hplaying
  have hplaying' : ((countCommand s).chan ch).isPlaying = true := by rwa [chan_countCommand]
  rw [exec_stop, stopIfPlaying_playing hplaying', stopChannel_spec]
  simp only [chan_countCommand, answer_countCommand]
  rcases answer_cases s with hanswer | hanswer <;> simp [hanswer, Engine.disabled, ErrorStats.inc] <;> rfl

/-- Settles O35: there is no engine to disable, so what is left is the count. -/
theorem stopOfAStoppedChannelOnlyCounts : Obligations.StopOfAStoppedChannelOnlyCounts := by
  intro s ch p hidle
  rw [exec_stop, stopIfPlaying_idle (by rwa [chan_countCommand])]
  rfl

/-- Settles O37: the sequence of STOP where the channel plays, and both buffers cleared to mid-scale. -/
theorem resetReinitializesTheChannel : Obligations.ResetReinitializesTheChannel := by
  intro s ch p
  refine ⟨Slots.midScale, Slots.midScale, fun _ => rfl, fun _ => rfl, rfl, rfl, ?_⟩
  rw [exec_reset]
  cases hplaying : (s.chan ch).isPlaying
  case false =>
    rw [stopIfPlaying_idle (by rwa [chan_countCommand])]
    simp [Channel.clear]
    rfl
  case true =>
    rw [stopIfPlaying_playing (by rwa [chan_countCommand]), stopChannel_spec]
    rcases answer_cases s with hanswer | hanswer <;>
      simp [hanswer, Channel.clear, Engine.disabled, ErrorStats.inc]

/-- Settles O38: none of the three meanings mentions the operand. -/
theorem paramOfPlayStopResetIsIgnored : Obligations.ParamOfPlayStopResetIsIgnored := by
  intro s ch p q
  exact ⟨(exec_play ch p s).trans (exec_play ch q s).symm, (exec_stop ch p s).trans (exec_stop ch q s).symm,
    (exec_reset ch p s).trans (exec_reset ch q s).symm⟩

/-- Settles O39: R233's check, made on the term. -/
theorem dataOfAnIllegalCountIsDropped : Obligations.DataOfAnIllegalCountIsDropped := by
  intro s ch xs hillegal
  exact if_pos hillegal

/-- Settles O42: past the gate, a full buffer selects the swap path of `exec_drainComplete`, and
`drainSwap_spec` is its whole effect. -/
theorem drainCompleteSwapsAFullBuffer : Obligations.DrainCompleteSwapsAFullBuffer := by
  intro s ch hplaying hrunning hfull
  rw [exec_drainComplete, if_pos ⟨hplaying, hrunning⟩, if_pos hfull, drainSwap_spec, swap_spec, if_pos hfull]
  rfl

end Sys2Proof

/-! ## Reset (10_state.md R63, 70_reset_and_hazards.md R450) -/

namespace Sys2Proof.Machine

theorem exec_sysReset (s : State) :
    exec .sysReset s = .next (State.endEvent { s with
      rx := { state := .idle, armed := false, count := 0, land := s.rx.land }
      c0 := Channel.reset
      c1 := Channel.reset
      clkRunning := false
      stats := ErrorStats.reset
      env := { s.env with pending := [] }
      ext := Collaborators.quiet }) := rfl

theorem channel_reset_good (ob : Nat) : Channel.reset.Good ob :=
  ⟨Nat.zero_le _, iff_of_true rfl rfl, Nat.le_refl _, rfl, rfl⟩

theorem engineGood_quiet (ch : Chan) : EngineGood .off (Collaborators.quiet.engine ch) := by
  cases ch <;> exact ⟨iff_of_false nofun nofun, by decide⟩

end Sys2Proof.Machine

namespace Sys2Proof

open Machine

/-- Settles O53: `exec_sysReset`, whose flow is that of two empty channels. -/
theorem sysResetGivesTheResetTable : Obligations.SysResetGivesTheResetTable := fun s => exec_sysReset s

/-- Settles O54: the fields of `State.reset`, with every unlisted slot at the mid-scale of 12 bits. -/
theorem resetStateHasTheTableValues : Obligations.ResetStateHasTheTableValues := by
  refine ⟨rfl, rfl, rfl, fun ch => ?_, rfl, rfl, rfl, rfl, rfl, rfl, rfl, rfl, rfl, rfl, rfl⟩
  have hmid : ∀ b k, (Channel.reset.buf b).read State.reset.params.outBits k = 2048 := by
    rintro (_ | _) k <;> rfl
  cases ch <;> exact ⟨hmid, rfl, rfl, rfl, rfl, rfl, rfl, rfl, rfl, rfl⟩

/-- Settles O55: both channels are empty, and both engines quiet. -/
theorem resetStateIsGood : Obligations.ResetStateIsGood where
  outBits_pos := by decide
  outBits_le := by decide
  c0 := channel_reset_good _
  c1 := channel_reset_good _
  clk := rfl
  idle := fun _ => rfl
  count_le := Nat.zero_le _
  ready := rfl
  land_wf := rfl
  engine0 := engineGood_quiet .ch0
  engine1 := engineGood_quiet .ch1

end Sys2Proof

/-! ## Draws, steps and pending events (60_exceptions.md R411, R412, R421; 10_state.md R64) -/

namespace Sys2Proof.Machine

/-- A draw takes one answer, or counts one free answer, and leaves the rest of the environment. -/
theorem afterDraw_frame (e : Env) :
    e.afterDraw = { e with answers := e.afterDraw.answers, answerCount := e.afterDraw.answerCount } := by
  unfold Env.afterDraw
  split <;> rfl

@[simp] theorem passTime_env (s : State) : (passTime s).env = s.env := by
  rw [(passTime_spec s).1]

theorem takeAndRun_event {s t : State} {i : Instr} (h : takeEvent s = some (i, t)) (hi : i.isEvent = true) :
    takeAndRun s = exec i t := by
  simp only [takeAndRun, h, hi, if_true]

theorem takeAndRun_frame {s t : State} {i : Instr} (h : takeEvent s = some (i, t)) (hi : i.isEvent = false) :
    takeAndRun s = .refused .notAnEvent := by
  simp only [takeAndRun, h, hi, Bool.false_eq_true, if_false]

theorem takeAndRun_of_none {s : State} (h : takeEvent s = none) : takeAndRun s = .next s := by
  rw [takeAndRun, h]

theorem pick_of_eligible_nil {e : Env} (h : eligible false 0 e.pending = []) : e.pick = none := by
  rw [Env.pick, h]

theorem pick_of_eligible_singleton {e : Env} {k : Nat} (h : eligible false 0 e.pending = [k]) :
    e.pick = some (k, e) := by
  rw [Env.pick, h]

theorem pick_of_eligible_many {e : Env} {a b : Nat} {ks : List Nat} (h : eligible false 0 e.pending = a :: b :: ks) :
    e.pick = some ((a :: b :: ks).getD (e.choice % (ks.length + 2)) a, e.afterChoice) := by
  rw [Env.pick, h]

theorem takeEvent_of_pick {s : State} {e : Env} {k : Nat} {i : Instr} (h : s.env.pick = some (k, e))
    (hk : e.pending[k]? = some i) :
    takeEvent s = some (i, { s with env := { e with pending := e.pending.eraseIdx k } }) := by
  simp only [takeEvent, h, hk]

theorem takeEvent_none_of_pending_nil {s : State} (h : s.env.pending = []) : takeEvent s = none := by
  have hpick : s.env.pick = none := pick_of_eligible_nil (by rw [h]; rfl)
  rw [takeEvent, hpick]

/-- One pending event is taken without a choice. -/
theorem takeEvent_of_pending_singleton {s : State} {i : Instr} (h : s.env.pending = [i]) :
    takeEvent s = some (i, { s with env := { s.env with pending := [] } }) := by
  have heligible : eligible false 0 s.env.pending = [0] := by
    rw [h]; cases hw : i.isWire <;> simp [eligible, hw]
  have hpick := pick_of_eligible_singleton heligible
  rw [takeEvent_of_pick hpick (by rw [h]; rfl), h]
  rfl

/-- Every position among the eligible ones is the one picked for some choice. -/
theorem exists_choice_pick {e : Env} {k : Nat} (hk : k ∈ eligible false 0 e.pending) :
    ∃ c e', ({ e with choices := [c] } : Env).pick = some (k, e') ∧ e'.pending = e.pending := by
  match hlist : eligible false 0 e.pending with
  | [] => rw [hlist] at hk; cases hk
  | [a] =>
    rw [hlist, List.mem_singleton] at hk
    exact ⟨0, { e with choices := [0] }, hk ▸ pick_of_eligible_singleton hlist, rfl⟩
  | a :: b :: ks =>
    rw [hlist] at hk
    obtain ⟨n, hn, hget⟩ := List.getElem_of_mem hk
    refine ⟨n, Env.afterChoice { e with choices := [n] }, ?_, (afterChoice_spec _).1⟩
    have hchoice : Env.choice { e with choices := [n] } % (ks.length + 2) = n := Nat.mod_eq_of_lt hn
    rw [pick_of_eligible_many (e := { e with choices := [n] }) hlist, hchoice, List.getD_eq_getElem _ _ hn, hget]

/-- A step sees of the state only what is left once the next tick is known. -/
theorem step_congr {s t : State} (h : phaseClock s = phaseClock t) : step s = step t := by
  rw [step, h, step]

theorem step_tick {s : State} (hrunning : s.clkRunning = true) (hdue : s.ext.clockPhase = some 0) :
    step s = .next (tick s) := by
  have htick : tickDue s = true := by rw [tickDue, hrunning, hdue]; rfl
  rw [step, phaseClock_some hdue, if_pos htick]

/-- The events of R308 where the engine drains, with the slot numbers written out. -/
theorem drainEvents_eq (d : Bool) (ch : Chan) (k : Nat) :
    (if d then drainEvents ch k else []) =
      if d = true ∧ k = 1023 then [.drainHalf ch.toNat]
      else if d = true ∧ 2047 ≤ k then [.drainComplete ch.toNat]
      else [] := by
  cases d
  · simp
  · simp [drainEvents, show Config.cap = 2048 from rfl]

/-- What both engines do at a tick, channel 0 first: `drains ch` says which of them read a slot. -/
theorem tick_spec (s : State) : ∃ drains : Chan → Bool,
    (∀ ch, (s.ext.engine ch).drain = .stopped → drains ch = false) ∧
    (∀ ch, (s.ext.engine ch).drain = .draining → drains ch = true) ∧
    (tick s).ext.clockPhase = none ∧
    (∀ ch, (tick s).ext.engine ch =
      if drains ch then (s.ext.engine ch).advanced else { s.ext.engine ch with drain := .stopped }) ∧
    (tick s).env.pending = s.env.pending ++
      (if drains .ch0 then drainEvents .ch0 (s.ext.engine .ch0).position else []) ++
      (if drains .ch1 then drainEvents .ch1 (s.ext.engine .ch1).position else []) ∧
    (tick s).env.answers = s.env.answers ∧ (tick s).env.answerCount = s.env.answerCount := by
  let s0 : State := { s with ext := { s.ext with clockPhase := none } }
  obtain ⟨d0, hstopped0, hdraining0, -, hext0, hpending0, hanswers0, hcount0⟩ := tickEngine_spec .ch0 s0
  obtain ⟨d1, hstopped1, hdraining1, -, hext1, hpending1, hanswers1, hcount1⟩ :=
    tickEngine_spec .ch1 (tickEngine .ch0 s0)
  have hengine1 : (tickEngine .ch0 s0).ext.engine .ch1 = s.ext.engine .ch1 := by rw [hext0]; rfl
  rw [hengine1] at hstopped1 hdraining1 hext1 hpending1
  rw [hext0] at hext1
  refine ⟨fun | .ch0 => d0 | .ch1 => d1, ?_, ?_, ?_, ?_, ?_, hanswers1.trans hanswers0, hcount1.trans hcount0⟩
  · rintro (_ | _)
    · exact hstopped0
    · exact hstopped1
  · rintro (_ | _)
    · exact hdraining0
    · exact hdraining1
  · exact congrArg Collaborators.clockPhase hext1
  · rintro (_ | _)
    · exact congrArg Collaborators.engine0 hext1
    · exact congrArg Collaborators.engine1 hext1
  · exact hpending1.trans (congrArg (· ++ _) hpending0)

end Sys2Proof.Machine

namespace Sys2Proof

open Machine

/-- Settles O11: the environment that answers `a` next, and a draw's own frame. -/
theorem everyAnswerCanBeDrawn : Obligations.EveryAnswerCanBeDrawn := by
  intro s a
  refine ⟨⟨{ s.env with answers := [a] }, rfl, rfl⟩, rfl, ?_, ?_, ?_⟩ <;>
    rw [drawn_env, afterDraw_frame]

/-- Settles O7: between two ticks a step is `takeAndRun`, the one pending event is the deassertion, and that runs
the decoded frame at the closed capture. -/
theorem stepRunsTheCapturedFrame : Obligations.StepRunsTheCapturedFrame := by
  intro s i hbetween hpending hcapturing harmed hdecode
  have htake := takeEvent_of_pending_singleton (s := passTime s) (by rwa [passTime_env])
  have htaken : { passTime s with env := { (passTime s).env with pending := [] } } =
      { s with env := { s.env with pending := [] }, ext := (passTime s).ext } := by
    rw [(passTime_spec s).1]
  rw [step_betweenTicks hbetween, takeAndRun_event htake rfl]
  exact (congrArg (exec .selDeassert) htaken).trans (execSelDeassert_ok hcapturing harmed hdecode)

/-- Settles O8: `step_betweenTicks`, then what `takeEvent_spec` and `eligible_spec` say of the event taken. -/
theorem stepTakesOnePendingEvent : Obligations.StepTakesOnePendingEvent := by
  intro s i t hbetween htake
  rw [step_betweenTicks hbetween]
  refine ⟨takeAndRun_event htake, takeAndRun_frame htake, ?_⟩
  obtain ⟨k, hk, hget, hframe, hpending, hanswers, hcount⟩ := takeEvent_spec htake
  rw [passTime_env] at hk hget hpending hanswers hcount
  refine ⟨k, hget, hpending, ?_, hanswers, hcount, ?_⟩
  · rw [hframe, (passTime_spec s).1]
  · obtain ⟨j, i', hkj, hget', hwire⟩ := (eligible_spec _ _ _ _).mp hk
    obtain rfl : k = j := by omega
    obtain rfl : i = i' := Option.some.inj (hget.symm.trans hget')
    exact fun hi => (hwire hi).2

/-- Settles O9: an event that the wire does not hold back is eligible, and every eligible position is picked for
some choice. -/
theorem everyPendingOrderIsAdmitted : Obligations.EveryPendingOrderIsAdmitted := by
  intro s k i hget hwire
  have hk : k ∈ eligible false 0 s.env.pending :=
    (eligible_spec _ _ _ _).mpr ⟨k, i, (Nat.zero_add k).symm, hget, fun hi => ⟨rfl, hwire hi⟩⟩
  obtain ⟨c, e, hpick, hpending⟩ := exists_choice_pick hk
  refine ⟨c, _, takeEvent_of_pick hpick (hpending ▸ hget), ?_⟩
  rw [hpending]

/-- Settles O10: the block idles between ticks, the environment names the next tick where none is known, and a tick
is `tick_spec`, with nothing of the block touched (`tick_keeps`). -/
theorem timePassesBetweenEvents : Obligations.TimePassesBetweenEvents := by
  intro s
  refine ⟨fun hpending hstopped => ?_, fun hpending hrunning n hphase => ?_, fun hrunning hphase => ?_,
    fun hrunning hdue => ?_⟩
  · have hbetween : s.betweenTicks := fun h => absurd (hstopped.symm.trans h) nofun
    rw [step_betweenTicks hbetween, passTime_stopped hstopped,
      takeAndRun_of_none (takeEvent_none_of_pending_nil hpending)]
  · have hbetween : s.betweenTicks := fun _ => ⟨n, hphase⟩
    rw [step_betweenTicks hbetween, takeAndRun_of_none (takeEvent_none_of_pending_nil (by rwa [passTime_env])),
      passTime_running hrunning hphase]
  · apply step_congr
    rw [phaseClock_none hrunning hphase, phaseClock_some rfl]
  · obtain ⟨drains, hstopped, hdraining, hphase, hengine, hpending, hanswers, hcount⟩ := tick_spec s
    refine ⟨tick s, drains, step_tick hrunning hdue, (tick_keeps s).1, hphase, hanswers, hcount, hstopped, hdraining,
      hengine, ?_⟩
    rw [hpending, drainEvents_eq, drainEvents_eq]

end Sys2Proof

/-! ## Completion and the end of every event (60_exceptions.md R400, 45_flow_controller.md R341) -/

namespace Sys2Proof.Machine

/-- Every frame operation answers a next state, which ends with the update of the ready line. -/
theorem frame_completes {i : Instr} (hi : i.isEvent = false) (s : State) :
    ∃ u : State, exec i s = .next u.endEvent := by
  cases i <;> simp only [Instr.isEvent, Bool.true_eq_false] at hi
  case data ch xs =>
    simp only [exec, execData]
    split <;> exact ⟨_, rfl⟩
  all_goals exact ⟨_, rfl⟩

theorem selDeassert_completes (s : State) : ∃ u : State, exec .selDeassert s = .next u.endEvent := by
  cases hstate : s.rx.state
  · exact ⟨s, exec_selDeassert_idle hstate⟩
  cases harmed : s.rx.armed
  · exact ⟨_, exec_selDeassert_unarmed hstate harmed⟩
  cases hdecode : decode s.captured with
  | error r => exact ⟨_, execSelDeassert_error hstate harmed hdecode⟩
  | ok i =>
    rw [execSelDeassert_ok hstate harmed hdecode]
    exact frame_completes (decode_isFrame hdecode) _

theorem drainComplete_completes (ch : Chan) (s : State) :
    ∃ u : State, exec (.drainComplete ch.toNat) s = .next u.endEvent := by
  rw [exec_drainComplete]
  split_ifs <;> exact ⟨_, rfl⟩

theorem selAssert_completes (s : State) : ∃ u : State, exec .selAssert s = .next u.endEvent := by
  cases hstate : s.rx.state
  · exact ⟨_, exec_selAssert_idle hstate⟩
  · exact ⟨s, exec_selAssert_capturing hstate⟩

theorem rxByte_completes {b : Nat} (hb : b < 256) (s : State) :
    ∃ u : State, exec (.rxByte b) s = .next u.endEvent := by
  by_cases hstore : s.rx.state = .capturing ∧ s.rx.armed = true ∧ s.rx.count < Config.landSize
  · obtain ⟨hstate, harmed, hroom⟩ := hstore
    exact ⟨_, exec_rxByte_store hb hstate harmed hroom⟩
  · exact ⟨s, exec_rxByte_dropped hb hstore⟩

theorem wordAccess_iff {off : Nat} {size : AccessSize} :
    wordAccess off size = true ↔ off ≤ 0x7C ∧ off % 4 = 0 ∧ size = .word := by
  simp only [wordAccess, Bool.and_eq_true, decide_eq_true_iff]

/-- Everything an operation can answer: a next state that ends with the update of the ready line, where its operands
are in range, and otherwise a refusal. -/
theorem exec_outcome (i : Instr) (s : State) :
    (∃ u : State, exec i s = .next u.endEvent) ∨ i.wf = false ∧ ∃ r, exec i s = .refused r := by
  cases i with
  | play ch p => exact .inl (frame_completes rfl s)
  | stop ch p => exact .inl (frame_completes rfl s)
  | volume ch p => exact .inl (frame_completes rfl s)
  | reset ch p => exact .inl (frame_completes rfl s)
  | data ch xs => exact .inl (frame_completes rfl s)
  | selAssert => exact .inl (selAssert_completes s)
  | selDeassert => exact .inl (selDeassert_completes s)
  | rxError => exact .inl ⟨_, exec_rxError s⟩
  | sysReset => exact .inl ⟨_, exec_sysReset s⟩
  | rxByte b =>
    by_cases hb : b < 256
    · exact .inl (rxByte_completes hb s)
    · exact .inr ⟨decide_eq_false hb, _, exec_rxByte_refused (Nat.not_lt.mp hb) s⟩
  | drainHalf n =>
    by_cases hn : n < 2
    · obtain ⟨ch, rfl⟩ := exists_toNat_eq hn
      exact .inl ⟨s, exec_drainHalf ch s⟩
    · exact .inr ⟨decide_eq_false hn, _, exec_drainHalf_refused (Nat.not_lt.mp hn) s⟩
  | drainComplete n =>
    by_cases hn : n < 2
    · obtain ⟨ch, rfl⟩ := exists_toNat_eq hn
      exact .inl (drainComplete_completes ch s)
    · exact .inr ⟨decide_eq_false hn, _, exec_drainComplete_refused (Nat.not_lt.mp hn) s⟩
  | statusRead off size =>
    by_cases hoff : off ≤ 0x7C
    · by_cases hword : off % 4 = 0 ∧ size = .word
      · obtain ⟨haligned, rfl⟩ := hword
        exact .inl ⟨_, exec_statusRead_word hoff haligned s⟩
      · refine .inr ⟨?_, _, exec_statusRead_unaligned hoff hword s⟩
        exact Bool.eq_false_iff.mpr fun h => hword (wordAccess_iff.mp h).2
    · refine .inr ⟨?_, _, exec_statusRead_refused (Nat.not_le.mp hoff) size s⟩
      exact Bool.eq_false_iff.mpr fun h => hoff (wordAccess_iff.mp h).1
  | ctrlWrite off size v =>
    have hwf : (Instr.ctrlWrite off size v).wf = true ↔ (off ≤ 0x7C ∧ off % 4 = 0 ∧ size = .word) ∧ v < 2 ^ 32 := by
      rw [Instr.wf, Bool.and_eq_true, wordAccess_iff, decide_eq_true_iff]
    by_cases hrange : off ≤ 0x7C ∧ v < 2 ^ 32
    · by_cases hword : off % 4 = 0 ∧ size = .word
      · obtain ⟨haligned, rfl⟩ := hword
        exact .inl ⟨_, exec_ctrlWrite_word hrange.1 hrange.2 haligned s⟩
      · refine .inr ⟨?_, _, exec_ctrlWrite_unaligned hrange.1 hrange.2 hword s⟩
        exact Bool.eq_false_iff.mpr fun h => hword (hwf.mp h).1.2
    · refine .inr ⟨?_, _, exec_ctrlWrite_refused hrange size s⟩
      exact Bool.eq_false_iff.mpr fun h => hrange ⟨(hwf.mp h).1.1, (hwf.mp h).2⟩

theorem exec_readyOut {i : Instr} {s t : State} (h : exec i s = .next t) : t.readyOut = flow t := by
  rcases exec_outcome i s with ⟨u, hnext⟩ | ⟨_, r, hrefused⟩
  · cases hnext.symm.trans h
    rfl
  · cases hrefused.symm.trans h

end Sys2Proof.Machine

namespace Sys2Proof

open Machine

/-- Settles O12: of the two outcomes of `exec_outcome` the refusal needs an operand out of range, and neither is a
fault. -/
theorem everyWellFormedOperationCompletes : Obligations.EveryWellFormedOperationCompletes := by
  intro i s
  rcases exec_outcome i s with ⟨u, hnext⟩ | ⟨hwf, r, hrefused⟩
  · exact ⟨fun _ => ⟨_, hnext⟩, fun f hfault => nomatch hnext.symm.trans hfault⟩
  · exact ⟨fun h => absurd (hwf.symm.trans h) nofun, fun f hfault => nomatch hrefused.symm.trans hfault⟩

/-- Settles O13: every next state of `exec_outcome` ends with the update. -/
theorem everyEventEndsWithTheFlowUpdate : Obligations.EveryEventEndsWithTheFlowUpdate := fun _ _ _ => exec_readyOut

end Sys2Proof

/-! ## Counting a closed capture (60_exceptions.md R407) -/

namespace Sys2Proof.Machine

/-- Exactly one of the four frame counters is one more, and `last_captured` is kept. -/
def ErrorStats.CountsOneFrame (e e' : ErrorStats) : Prop :=
  ∃ faults, e' = { e with transportFaults := faults, invalidHeader := e.invalidHeader + 1 } ∨
    e' = { e with transportFaults := faults, invalidChanLen := e.invalidChanLen + 1 } ∨
    e' = { e with transportFaults := faults, commandFrames := e.commandFrames + 1 } ∨
    e' = { e with transportFaults := faults, dataFrames := e.dataFrames + 1 }

/-- A rejection is counted as a header error or as a channel or length error (R402). -/
theorem stats_raiseReject (r : Reject) (s : State) : s.stats.CountsOneFrame (raiseReject r s).stats := by
  refine ⟨s.stats.transportFaults, ?_⟩
  cases r <;> first | exact Or.inl rfl | exact Or.inr (Or.inl rfl)

theorem stats_outDisable (ch : Chan) (s : State) :
    ∃ faults, (outDisable ch s).stats = { s.stats with transportFaults := faults } := by
  rw [outDisable_spec, setChan_stats]
  rcases answer_cases s with h | h
  · exact ⟨s.stats.transportFaults, by simp [h]⟩
  · exact ⟨s.stats.transportFaults + 1, by simp [h, ErrorStats.inc]⟩

theorem stats_playTeardown (ch : Chan) (s : State) :
    ∃ faults, (playTeardown ch s).stats = { s.stats with transportFaults := faults } := by
  unfold playTeardown
  split
  · exact stats_outDisable ch s
  · exact ⟨_, rfl⟩

theorem stats_stopIfPlaying (ch : Chan) (s : State) :
    ∃ faults, (stopIfPlaying ch s).stats = { s.stats with transportFaults := faults } := by
  unfold stopIfPlaying
  split
  · obtain ⟨faults, h⟩ := stats_outDisable ch s
    exact ⟨faults, by rw [stopChannel, stats_clockRelease, setPlaying_stats, h]⟩
  · exact ⟨_, rfl⟩

theorem stats_playStart (ch : Chan) (s : State) : (playStart ch s).stats = s.stats := by
  rw [playStart_spec, setChan_stats]

/-- Every frame operation counts the frame once. -/
theorem frame_countsOneFrame {i : Instr} {s t : State} (hi : i.isEvent = false) (h : exec i s = .next t) :
    s.stats.CountsOneFrame t.stats := by
  cases i <;> simp only [Instr.isEvent, Bool.true_eq_false] at hi
  case play ch p =>
    obtain ⟨faults, hfaults⟩ := stats_playTeardown ch (countCommand s)
    cases h
    refine ⟨faults, .inr (.inr (.inl ?_))⟩
    rw [endEvent_stats]
    exact (stats_playStart ch _).trans hfaults
  case stop ch p =>
    obtain ⟨faults, hfaults⟩ := stats_stopIfPlaying ch (countCommand s)
    cases h
    exact ⟨faults, .inr (.inr (.inl hfaults))⟩
  case volume ch p =>
    cases h
    refine ⟨s.stats.transportFaults, .inr (.inr (.inl ?_))⟩
    rw [endEvent_stats, setChan_stats, countCommand_stats]
  case reset ch p =>
    obtain ⟨faults, hfaults⟩ := stats_stopIfPlaying ch (countCommand s)
    cases h
    refine ⟨faults, .inr (.inr (.inl ?_))⟩
    rw [endEvent_stats, setChan_stats, hfaults]
    rfl
  case data ch xs =>
    simp only [exec, execData] at h
    split at h <;> cases h
    · exact stats_raiseReject (.badCount xs.length) s
    · refine ⟨s.stats.transportFaults, .inr (.inr (.inr ?_))⟩
      rw [endEvent_stats, setChan_stats, countData_stats]

theorem stats_closeCapture {s : State} (harmed : s.rx.armed = true) :
    ∃ faults, (closeCapture s).stats =
      { s.stats with transportFaults := faults, lastCaptured := BitVec.ofNat 32 s.rx.count } := by
  rw [closeCapture_armed harmed]
  rcases answer_cases s with h | h
  · exact ⟨s.stats.transportFaults, by simp [h]⟩
  · exact ⟨s.stats.transportFaults + 1, by simp [h, ErrorStats.inc]⟩

/-- Closing an armed capture leaves it closed and counted once, whatever its span decodes to. -/
theorem selDeassert_countsOneFrame {s : State} (hcapturing : s.rx.state = .capturing) (harmed : s.rx.armed = true) :
    ∃ t, exec .selDeassert s = .next t ∧ t.rx = (closeCapture s).rx ∧
      (closeCapture s).stats.CountsOneFrame t.stats := by
  cases hdecode : decode s.captured with
  | error r => exact ⟨_, execSelDeassert_error hcapturing harmed hdecode, rfl, stats_raiseReject r _⟩
  | ok i =>
    have hframe := decode_isFrame hdecode
    obtain ⟨u, hnext⟩ := frame_completes hframe (closeCapture s)
    rw [execSelDeassert_ok hcapturing harmed hdecode]
    exact ⟨_, hnext, (frame_clk_rx hframe hnext).1, frame_countsOneFrame hframe hnext⟩

end Sys2Proof.Machine

namespace Sys2Proof

open Machine

/-- Settles O22: a rejection and each frame operation count once (`selDeassert_countsOneFrame`). -/
theorem armedCaptureCountsExactlyOnce : Obligations.ArmedCaptureCountsExactlyOnce := by
  intro s hcapturing harmed
  obtain ⟨t, hnext, hrx, faults, hcount⟩ := selDeassert_countsOneFrame hcapturing harmed
  obtain ⟨faults', hclosed⟩ := stats_closeCapture harmed
  rw [hclosed] at hcount
  rw [rx_closeCapture] at hrx
  refine ⟨t, hnext, by rw [hrx], by rw [hrx], ?_, ?_⟩
  · rcases hcount with h | h | h | h <;> rw [h]
  · rcases hcount with h | h | h | h <;> simp [h]

end Sys2Proof

/-! ## Bytes above the count (10_state.md R36, 42_parser.md R230) -/

namespace Sys2Proof.Machine

/-- The state with another landing buffer. -/
def State.withLand (m : Memory) (s : State) : State := { s with rx := { s.rx with land := m } }

/-- The captured span is made of the bytes below the count only. -/
theorem captured_withLand {s : State} {m : Memory} (h : ∀ a, a < s.rx.count → m.read a = s.rx.land.read a) :
    (s.withLand m).captured = s.captured := by
  refine List.map_congr_left fun a ha => ?_
  have hlt : a < min s.rx.count Config.landSize := List.mem_range.mp ha
  exact h a (by omega)

theorem closeCapture_withLand (m : Memory) (s : State) :
    closeCapture (s.withLand m) = (closeCapture s).withLand m := by
  cases harmed : s.rx.armed
  · rw [closeCapture_unarmed harmed, closeCapture_unarmed (s := s.withLand m) harmed]
    rfl
  · rw [closeCapture_armed harmed, closeCapture_armed (s := s.withLand m) harmed]
    rfl

theorem setChan_withLand (m : Memory) (ch : Chan) (c : Channel) (s : State) :
    (s.withLand m).setChan ch c = (s.setChan ch c).withLand m := by
  cases ch <;> rfl

theorem chan_withLand (m : Memory) (ch : Chan) (s : State) : (s.withLand m).chan ch = s.chan ch := by
  cases ch <;> rfl

theorem playTeardown_withLand (m : Memory) (ch : Chan) (s : State) :
    playTeardown ch (s.withLand m) = (playTeardown ch s).withLand m := by
  unfold playTeardown
  rw [chan_withLand, outDisable_spec, outDisable_spec]
  split
  · cases ch <;> rfl
  · rfl

theorem playStart_withLand (m : Memory) (ch : Chan) (s : State) :
    playStart ch (s.withLand m) = (playStart ch s).withLand m := by
  rw [playStart_spec, playStart_spec]
  cases ch <;> rfl

theorem stopIfPlaying_withLand (m : Memory) (ch : Chan) (s : State) :
    stopIfPlaying ch (s.withLand m) = (stopIfPlaying ch s).withLand m := by
  unfold stopIfPlaying
  rw [chan_withLand, stopChannel_spec, stopChannel_spec]
  split
  · cases ch <;> rfl
  · rfl

/-- No frame operation reads or writes the landing buffer. -/
theorem frame_withLand {i : Instr} {s t : State} (m : Memory) (hi : i.isEvent = false) (h : exec i s = .next t) :
    exec i (s.withLand m) = .next (t.withLand m) := by
  have hcount : countCommand (s.withLand m) = (countCommand s).withLand m := rfl
  cases i <;> simp only [Instr.isEvent, Bool.true_eq_false] at hi
  case play ch p =>
    cases h
    rw [exec_play, hcount, playTeardown_withLand, playStart_withLand]
    rfl
  case stop ch p =>
    cases h
    rw [exec_stop, hcount, stopIfPlaying_withLand]
    rfl
  case volume ch p =>
    cases h
    rw [exec_volume, hcount, setChan_withLand, chan_withLand]
    rfl
  case reset ch p =>
    cases h
    rw [exec_reset, hcount, stopIfPlaying_withLand, setChan_withLand, chan_withLand]
    rfl
  case data ch xs =>
    simp only [exec, execData] at h ⊢
    split at h <;> cases h
    · rw [if_pos ‹_›]
      rfl
    · rw [if_neg ‹_›]
      cases ch <;> rfl

end Sys2Proof.Machine

namespace Sys2Proof

open Machine

/-- Settles O23: the two captures are the same span, and what runs on it never looks at the landing buffer. -/
theorem bytesAboveTheCountAreNeverRead : Obligations.BytesAboveTheCountAreNeverRead := by
  intro s t m hagree h
  change exec .selDeassert (s.withLand m) = .next (t.withLand m)
  have hspan := captured_withLand hagree
  cases hstate : s.rx.state
  case idle =>
    rw [exec_selDeassert_idle hstate] at h
    rw [exec_selDeassert_idle (s := s.withLand m) hstate]
    cases h
    rfl
  cases harmed : s.rx.armed
  case false =>
    rw [exec_selDeassert_unarmed hstate harmed] at h
    rw [exec_selDeassert_unarmed (s := s.withLand m) hstate harmed, closeCapture_withLand]
    cases h
    rfl
  cases hdecode : decode s.captured with
  | error r =>
    rw [execSelDeassert_error hstate harmed hdecode] at h
    rw [execSelDeassert_error (s := s.withLand m) hstate harmed (hspan ▸ hdecode), closeCapture_withLand]
    cases h
    rfl
  | ok i =>
    rw [execSelDeassert_ok hstate harmed hdecode] at h
    rw [execSelDeassert_ok (s := s.withLand m) hstate harmed (hspan ▸ hdecode), closeCapture_withLand]
    exact frame_withLand m (decode_isFrame hdecode) h

end Sys2Proof

/-! ## Sample conversion and volume (40_audio_channel.md R151, R152, R159, R160) -/

namespace Sys2Proof.Machine

/-- OUT_BITS and the bits that conversion discards make up a sample (R8). -/
theorem two_pow_shift_mul (ob : Nat) (hpos : 1 ≤ ob) (hle : ob ≤ 16) :
    (2 : Int) ^ (16 - ob) * 2 ^ (ob - 1) = 32768 := by
  rw [← pow_add, show 16 - ob + (ob - 1) = 15 by omega]
  norm_num

theorem midOf_cast (ob : Nat) : ((Config.midOf ob : Nat) : Int) = 2 ^ (ob - 1) := by
  simp [Config.midOf]

/-- MAX_CODE is one below twice MID (R8). -/
theorem maxCodeOf_cast {ob : Nat} (hpos : 1 ≤ ob) : ((Config.maxCodeOf ob : Nat) : Int) = 2 * 2 ^ (ob - 1) - 1 := by
  have hpow : 2 ^ ob = 2 * 2 ^ (ob - 1) := by rw [← pow_succ', Nat.sub_add_cancel hpos]
  have hle : 1 ≤ 2 ^ ob := Nat.one_le_two_pow
  rw [Config.maxCodeOf, Nat.cast_sub hle, hpow]
  push_cast
  rfl

/-- The shifted sample, which is the deviation of its code from mid-scale. -/
def shifted (ob : Nat) (x : Half) : Int := x.toInt / 2 ^ (16 - ob)

theorem convertAt_eq (ob : Nat) (x : Half) : convertAt ob x = shifted ob x + 2 ^ (ob - 1) := by
  rw [convertAt, midOf_cast]
  rfl

/-- The shifted sample is a signed number of OUT_BITS bits. -/
theorem shifted_range {ob : Nat} (hpos : 1 ≤ ob) (hle : ob ≤ 16) (x : Half) :
    -(2 ^ (ob - 1)) ≤ shifted ob x ∧ shifted ob x < 2 ^ (ob - 1) := by
  have hunit : (0 : Int) < 2 ^ (16 - ob) := by positivity
  have hlow : -32768 ≤ x.toInt := BitVec.le_toInt x
  have hhigh : x.toInt < 32768 := BitVec.toInt_lt
  rw [shifted, Int.le_ediv_iff_mul_le hunit, Int.ediv_lt_iff_lt_mul hunit]
  constructor
  · rw [neg_mul, mul_comm, two_pow_shift_mul ob hpos hle]
    exact hlow
  · rw [mul_comm, two_pow_shift_mul ob hpos hle]
    exact hhigh

/-- The deviation at volume `v`, toward zero (D4). -/
def scaled (d : Int) (v : Nat) : Int := Int.tdiv (d * v) 100

theorem scaled_neg (d : Int) (v : Nat) : scaled (-d) v = -scaled d v := by
  rw [scaled, neg_mul, Int.neg_tdiv, scaled]

theorem scaled_of_nonneg {d : Int} (hd : 0 ≤ d) (v : Nat) : scaled d v = d * v / 100 :=
  Int.tdiv_eq_ediv_of_nonneg (by positivity)

theorem scaled_hundred (d : Int) : scaled d 100 = d := by
  rw [scaled]
  exact Int.mul_tdiv_cancel d (by decide)

theorem scaled_zero (d : Int) : scaled d 0 = 0 := by
  rw [scaled, Nat.cast_zero, mul_zero, Int.zero_tdiv]

theorem scaled_nonneg {d : Int} (hd : 0 ≤ d) (v : Nat) : 0 ≤ scaled d v := by
  rw [scaled_of_nonneg hd]
  positivity

theorem scaled_nonpos {d : Int} (hd : d ≤ 0) (v : Nat) : scaled d v ≤ 0 := by
  rw [← neg_nonneg, ← scaled_neg]
  exact scaled_nonneg (neg_nonneg.mpr hd) v

theorem abs_scaled (d : Int) (v : Nat) : |scaled d v| = scaled |d| v := by
  rcases le_total 0 d with hd | hd
  · rw [abs_of_nonneg hd, abs_of_nonneg (scaled_nonneg hd v)]
  · rw [abs_of_nonpos hd, scaled_neg, abs_of_nonpos (scaled_nonpos hd v)]

/-- The deviation is monotone in the volume. -/
theorem abs_scaled_mono (d : Int) {v w : Nat} (hvw : v ≤ w) : |scaled d v| ≤ |scaled d w| := by
  rw [abs_scaled, abs_scaled, scaled_of_nonneg (abs_nonneg d), scaled_of_nonneg (abs_nonneg d)]
  exact Int.ediv_le_ediv (by decide) (mul_le_mul_of_nonneg_left (by exact_mod_cast hvw) (abs_nonneg d))

/-- A volume up to 100 keeps the deviation in the range of the codes. -/
theorem scaled_range {m d : Int} (hlow : -m ≤ d) (hhigh : d < m) {v : Nat} (hv : v ≤ 100) :
    -m ≤ scaled d v ∧ scaled d v < m := by
  have habs := abs_scaled_mono d hv
  rw [scaled_hundred] at habs
  rcases le_total 0 d with hd | hd
  · rw [abs_of_nonneg hd, abs_of_nonneg (scaled_nonneg hd v)] at habs
    have := scaled_nonneg hd v
    omega
  · rw [abs_of_nonpos hd, abs_of_nonpos (scaled_nonpos hd v)] at habs
    have := scaled_nonpos hd v
    omega

/-- scale's clamp never acts on a converted sample (R160). -/
theorem scaleAt_convertAt {ob v : Nat} (hpos : 1 ≤ ob) (hle : ob ≤ 16) (hv : v ≤ 100) (x : Half) :
    scaleAt ob (convertAt ob x) v = 2 ^ (ob - 1) + scaled (shifted ob x) v := by
  obtain ⟨hlow, hhigh⟩ := shifted_range hpos hle x
  obtain ⟨hlow', hhigh'⟩ := scaled_range hlow hhigh hv
  have hunclamped : (if v < 100 then (Config.midOf ob : Int) +
      Int.tdiv ((convertAt ob x - Config.midOf ob) * v) 100 else convertAt ob x) =
        2 ^ (ob - 1) + scaled (shifted ob x) v := by
    rw [convertAt_eq, midOf_cast, add_sub_cancel_right]
    split
    · rfl
    · obtain rfl : v = 100 := by omega
      rw [scaled_hundred, add_comm]
  rw [scaleAt, hunclamped, clamp, maxCodeOf_cast hpos, max_eq_left (by omega), min_eq_left (by omega)]

/-- A code that a deviation in range gives lies between 0 and MAX_CODE. -/
theorem code_range {ob : Nat} (hpos : 1 ≤ ob) {d : Int} (hlow : -(2 ^ (ob - 1)) ≤ d) (hhigh : d < 2 ^ (ob - 1)) :
    0 ≤ 2 ^ (ob - 1) + d ∧ 2 ^ (ob - 1) + d ≤ 2 ^ ob - 1 := by
  have hpow : (2 : Int) ^ ob = 2 * 2 ^ (ob - 1) := by rw [← pow_succ', Nat.sub_add_cancel hpos]
  omega

end Sys2Proof.Machine

namespace Sys2Proof

open Machine

/-- Settles O24: conversion is `shifted` around mid-scale, with `shifted_range`. -/
theorem convertedSampleIsInRange : Obligations.ConvertedSampleIsInRange := by
  intro ob x hpos hle
  obtain ⟨hlow, hhigh⟩ := shifted_range hpos hle x
  rw [convertAt_eq]
  refine ⟨rfl, ?_⟩
  rw [add_comm]
  exact code_range hpos hlow hhigh

/-- Settles O25: with the clamp gone (`scaleAt_convertAt`) these are laws of the deviation `scaled`. -/
theorem volumeLawsHold : Obligations.VolumeLawsHold := by
  intro ob x v w hpos hle hvw hw
  obtain ⟨hlow, hhigh⟩ := shifted_range hpos hle x
  obtain ⟨hlow', hhigh'⟩ := scaled_range hlow hhigh (hvw.trans hw)
  rw [scaleAt_convertAt hpos hle (hvw.trans hw), scaleAt_convertAt hpos hle hw,
    scaleAt_convertAt hpos hle (Nat.le_refl 100), scaleAt_convertAt hpos hle (Nat.zero_le 100), scaled_hundred,
    scaled_zero, convertAt_eq, add_sub_cancel_left, add_sub_cancel_left]
  exact ⟨add_comm _ _, add_zero _, abs_scaled_mono _ hvw, code_range hpos hlow' hhigh'⟩

/-- Settles O26: the integer that `scaleAt_convertAt` gives is not negative, so storing it as a code loses nothing. -/
theorem storedCodeIsExact : Obligations.StoredCodeIsExact := by
  intro ob v x hpos hle hv
  obtain ⟨hlow, hhigh⟩ := shifted_range hpos hle x
  obtain ⟨hlow', hhigh'⟩ := scaled_range hlow hhigh hv
  refine ⟨?_, sampleCode_le ob v x⟩
  rw [sampleCode, scaleAt_convertAt hpos hle hv, Int.toNat_of_nonneg (code_range hpos hlow' hhigh').1]
  rfl

end Sys2Proof

/-! ## What each field of a channel can do (10_state.md R38 to R46, 20_memory.md R84, R95, R98) -/

namespace Sys2Proof.Machine

/-- fill writes the buffers, the index and the sample counter, whatever the channel holds (R153). -/
theorem fillLoop_writes (ob : Nat) : ∀ (xs : List Half) (c : Channel),
    (Channel.fillLoop ob xs c).2 = { c with
      buf0 := (Channel.fillLoop ob xs c).2.buf0
      buf1 := (Channel.fillLoop ob xs c).2.buf1
      fillIndex := (Channel.fillLoop ob xs c).2.fillIndex } ∧
    (Channel.fillLoop ob xs c).2.buf c.act = c.buf c.act
  | [], _ => ⟨rfl, rfl⟩
  | x :: xs, c => by
    unfold Channel.fillLoop
    split
    · exact ⟨rfl, rfl⟩
    · obtain ⟨hwrites, hactive⟩ := fillLoop_writes ob xs (c.store ob x)
      rw [store_act, store_buf_active] at hactive
      refine ⟨?_, hactive⟩
      rw [hwrites, store_frame]

theorem fill_writes (ob : Nat) (c : Channel) (xs : List Half) :
    (c.fill ob xs).2 = { c with
      buf0 := (c.fill ob xs).2.buf0
      buf1 := (c.fill ob xs).2.buf1
      fillIndex := (c.fill ob xs).2.fillIndex
      totalSamples := (c.fill ob xs).2.totalSamples } := by
  rw [Channel.fill, (fillLoop_writes ob xs c).1]

theorem fill_buf_active (ob : Nat) (c : Channel) (xs : List Half) : (c.fill ob xs).2.buf c.act = c.buf c.act := by
  rw [fill_buf, (fillLoop_writes ob xs c).2]

theorem fill_act (ob : Nat) (c : Channel) (xs : List Half) : (c.fill ob xs).2.act = c.act := by
  rw [fill_writes]

theorem fill_underrun (ob : Nat) (c : Channel) (xs : List Half) : (c.fill ob xs).2.underrun = c.underrun := by
  rw [fill_writes]

theorem fill_volume (ob : Nat) (c : Channel) (xs : List Half) : (c.fill ob xs).2.volume = c.volume := by
  rw [fill_writes]

theorem swap_isPlaying (c : Channel) : c.swap.2.isPlaying = c.isPlaying := by rw [swap_snd]

theorem swap_volume (c : Channel) : c.swap.2.volume = c.volume := by rw [swap_snd]

theorem swap_buf0 (c : Channel) : c.swap.2.buf0 = c.buf0 := by rw [swap_snd]

theorem swap_buf1 (c : Channel) : c.swap.2.buf1 = c.buf1 := by rw [swap_snd]

/-- A swap that changes the active buffer found the fill buffer full (R154). -/
theorem swap_of_act_ne {c : Channel} (h : c.swap.2.act ≠ c.act) :
    c.fillIndex = 2048 ∧ c.swap.2.fillIndex = 0 ∧ c.swap.2.swaps = c.swaps + 1 := by
  rw [swap_snd] at h ⊢
  by_cases hfull : c.fillIndex = 2048
  · simp [hfull]
  · simp [hfull] at h

/-- RESET's stop before it clears the channel, with the clear, leaves the roles and the volume (R156). -/
theorem clear_stop (c : Channel) :
    Channel.clear (if c.isPlaying then { c with outState := .off } else c) =
      { c.clear with outState := if c.isPlaying then .off else c.outState } := by
  split <;> rfl

/-- What an operation can do to `is_playing` (R40). -/
theorem exec_isPlaying_cases {i : Instr} {s t : State} (h : exec i s = .next t) (ch : Chan) :
    (t.chan ch).isPlaying = (s.chan ch).isPlaying ∨
    ((t.chan ch).isPlaying = true ∧ ∃ p, runsFrame i s (.play ch p)) ∨
    ((t.chan ch).isPlaying = false ∧
      (i = .sysReset ∨ ∃ p, runsFrame i s (.stop ch p) ∨ runsFrame i s (.reset ch p))) := by
  rcases exec_chan_cases h ch with
    (e | ⟨p, o, hrun, -, e⟩ | ⟨p, hrun, -, e⟩ | ⟨p, hrun, e⟩ | ⟨p, hrun, e⟩ | ⟨xs, hrun, e⟩) |
    ⟨o, hdrain, -, -, e⟩ | ⟨hdrain, -, e⟩ | ⟨hwrite, e⟩ | ⟨hreset, e⟩ <;> rw [e]
  · exact .inl rfl
  · exact .inr (.inl ⟨rfl, p, hrun⟩)
  · exact .inr (.inr ⟨rfl, .inr ⟨p, .inl hrun⟩⟩)
  · exact .inl rfl
  · exact .inr (.inr ⟨rfl, .inr ⟨p, .inr hrun⟩⟩)
  · exact .inl (fill_isPlaying _ _ _)
  · exact .inl (swap_isPlaying _)
  · exact .inl rfl
  · exact .inl rfl
  · exact .inr (.inr ⟨rfl, .inl hreset⟩)

/-- What an operation can do to `underrun` (R41, C7). -/
theorem exec_underrun_cases {i : Instr} {s t : State} (h : exec i s = .next t) (ch : Chan) :
    (t.chan ch).underrun = (s.chan ch).underrun ∨
    ((t.chan ch).underrun = true ∧ drains i s ch ∧ (s.chan ch).fillIndex ≠ 2048) ∨
    ((t.chan ch).underrun = false ∧
      (i = .sysReset ∨ (drains i s ch ∧ (s.chan ch).fillIndex = 2048) ∨
        ∃ p, runsFrame i s (.play ch p) ∨ runsFrame i s (.reset ch p))) := by
  rcases exec_chan_cases h ch with
    (e | ⟨p, o, hrun, -, e⟩ | ⟨p, hrun, -, e⟩ | ⟨p, hrun, e⟩ | ⟨p, hrun, e⟩ | ⟨xs, hrun, e⟩) |
    ⟨o, hdrain, hfull, -, e⟩ | ⟨hdrain, hnotFull, e⟩ | ⟨hwrite, e⟩ | ⟨hreset, e⟩ <;> rw [e]
  · exact .inl rfl
  · exact .inr (.inr ⟨rfl, .inr (.inr ⟨p, .inl hrun⟩)⟩)
  · exact .inl rfl
  · exact .inl rfl
  · exact .inr (.inr ⟨rfl, .inr (.inr ⟨p, .inr hrun⟩)⟩)
  · exact .inl (fill_underrun _ _ _)
  · exact .inr (.inr ⟨rfl, .inr (.inl ⟨hdrain, hfull⟩)⟩)
  · exact .inr (.inl ⟨rfl, hdrain, hnotFull⟩)
  · exact .inl rfl
  · exact .inr (.inr ⟨rfl, .inl hreset⟩)

/-- What an operation can do to `volume` (R42). -/
theorem exec_volume_cases {i : Instr} {s t : State} (h : exec i s = .next t) (ch : Chan) :
    (t.chan ch).volume = (s.chan ch).volume ∨ i = .sysReset ∨ ∃ p, runsFrame i s (.volume ch p) := by
  rcases exec_chan_cases h ch with
    (e | ⟨p, o, hrun, -, e⟩ | ⟨p, hrun, -, e⟩ | ⟨p, hrun, e⟩ | ⟨p, hrun, e⟩ | ⟨xs, hrun, e⟩) |
    ⟨o, hdrain, -, -, e⟩ | ⟨hdrain, -, e⟩ | ⟨hwrite, e⟩ | ⟨hreset, e⟩ <;> rw [e]
  · exact .inl rfl
  · exact .inl (swap_volume _)
  · exact .inl rfl
  · exact .inr (.inr ⟨p, hrun⟩)
  · rw [clear_stop]
    exact .inl rfl
  · exact .inl (fill_volume _ _ _)
  · exact .inl (swap_volume _)
  · exact .inl rfl
  · exact .inl rfl
  · exact .inr (.inl hreset)

/-- What an operation can do to the buffers' roles: nothing, or swap's change with nothing else written to the
buffers (R38). -/
theorem exec_act_cases {i : Instr} {s t : State} (h : exec i s = .next t) (ch : Chan) :
    (t.chan ch).act = (s.chan ch).act ∨ i = .sysReset ∨
    ((t.chan ch).act = (s.chan ch).swap.2.act ∧ (t.chan ch).fillIndex = (s.chan ch).swap.2.fillIndex ∧
      (t.chan ch).swaps = (s.chan ch).swap.2.swaps ∧ (t.chan ch).buf0 = (s.chan ch).buf0 ∧
      (t.chan ch).buf1 = (s.chan ch).buf1 ∧ ((∃ p, runsFrame i s (.play ch p)) ∨ drains i s ch)) := by
  rcases exec_chan_cases h ch with
    (e | ⟨p, o, hrun, -, e⟩ | ⟨p, hrun, -, e⟩ | ⟨p, hrun, e⟩ | ⟨p, hrun, e⟩ | ⟨xs, hrun, e⟩) |
    ⟨o, hdrain, -, -, e⟩ | ⟨hdrain, -, e⟩ | ⟨hwrite, e⟩ | ⟨hreset, e⟩ <;> rw [e]
  · exact .inl rfl
  · exact .inr (.inr ⟨rfl, rfl, rfl, swap_buf0 _, swap_buf1 _, .inl ⟨p, hrun⟩⟩)
  · exact .inl rfl
  · exact .inl rfl
  · rw [clear_stop]
    exact .inl rfl
  · exact .inl (fill_act _ _ _)
  · exact .inr (.inr ⟨rfl, rfl, rfl, swap_buf0 _, swap_buf1 _, .inr hdrain⟩)
  · exact .inl rfl
  · exact .inl rfl
  · exact .inr (.inl hreset)

/-- An operation that writes the active buffer of a channel which meets item 2 of R57 leaves its output OFF: fill
writes the other buffer, and RESET stops the channel before it clears both (R156, R265). -/
theorem exec_activeBuffer_cases {i : Instr} {s t : State} (h : exec i s = .next t) (ch : Chan)
    (hoff : (s.chan ch).isPlaying = false → (s.chan ch).outState = .off) :
    (t.chan ch).buf (s.chan ch).act = (s.chan ch).buf (s.chan ch).act ∨ (t.chan ch).outState = .off := by
  have both {c : Channel} (h0 : c.buf0 = (s.chan ch).buf0) (h1 : c.buf1 = (s.chan ch).buf1) :
      c.buf (s.chan ch).act = (s.chan ch).buf (s.chan ch).act := by
    cases (s.chan ch).act
    · exact h0
    · exact h1
  rcases exec_chan_cases h ch with
    (e | ⟨p, o, hrun, -, e⟩ | ⟨p, hrun, -, e⟩ | ⟨p, hrun, e⟩ | ⟨p, hrun, e⟩ | ⟨xs, hrun, e⟩) |
    ⟨o, hdrain, -, -, e⟩ | ⟨hdrain, -, e⟩ | ⟨hwrite, e⟩ | ⟨hreset, e⟩ <;> rw [e]
  · exact .inl rfl
  · exact .inl (both (swap_buf0 _) (swap_buf1 _))
  · exact .inr rfl
  · exact .inl (both rfl rfl)
  · rw [clear_stop]
    refine .inr ?_
    cases hplaying : (s.chan ch).isPlaying
    · exact hoff hplaying
    · rfl
  · exact .inl (fill_buf_active _ _ _)
  · exact .inl (both (swap_buf0 _) (swap_buf1 _))
  · exact .inl (both rfl rfl)
  · exact .inl (both rfl rfl)
  · exact .inr rfl

theorem State.Good.chan {s : State} (h : s.Good) (ch : Chan) : (s.chan ch).Good s.params.outBits := by
  cases ch
  · exact h.c0
  · exact h.c1

end Sys2Proof.Machine

namespace Sys2Proof

open Machine

/-- Settles O57: the three cases of `exec_isPlaying_cases`. -/
theorem playingChangesOnlyByItsCommands : Obligations.PlayingChangesOnlyByItsCommands := by
  intro i s t ch h
  rcases exec_isPlaying_cases h ch with hsame | ⟨hon, hplay⟩ | ⟨hoff, hstop⟩
  · rw [hsame]
    exact ⟨fun h0 h1 => absurd (h0.symm.trans h1) nofun, fun h1 h0 => absurd (h0.symm.trans h1) nofun⟩
  · exact ⟨fun _ _ => hplay, fun _ h0 => absurd (h0.symm.trans hon) nofun⟩
  · exact ⟨fun _ h1 => absurd (hoff.symm.trans h1) nofun, fun _ _ => hstop⟩

/-- Settles O58: the three cases of `exec_underrun_cases`. -/
theorem underrunChangesOnlyWhereStated : Obligations.UnderrunChangesOnlyWhereStated := by
  intro i s t ch h
  rcases exec_underrun_cases h ch with hsame | ⟨hon, hset⟩ | ⟨hoff, hclear⟩
  · rw [hsame]
    exact ⟨fun h0 h1 => absurd (h0.symm.trans h1) nofun, fun h1 h0 => absurd (h0.symm.trans h1) nofun⟩
  · exact ⟨fun _ _ => hset, fun _ h0 => absurd (h0.symm.trans hon) nofun⟩
  · exact ⟨fun _ h1 => absurd (hoff.symm.trans h1) nofun, fun _ _ => hclear⟩

/-- Settles O59: `exec_volume_cases` where the volume is not the same. -/
theorem volumeChangesOnlyByVolume : Obligations.VolumeChangesOnlyByVolume := fun _ _ _ ch h hne =>
  (exec_volume_cases h ch).resolve_left hne

/-- Settles O29: a change of roles is swap's (`exec_act_cases`), and swap acts on a full buffer only. -/
theorem rolesExchangeOnlyWhenFull : Obligations.RolesExchangeOnlyWhenFull := by
  intro i s t ch h hnotReset hne
  rcases exec_act_cases h ch with hsame | hreset | ⟨hact, hindex, hswaps, hbuf0, hbuf1, hby⟩
  · exact absurd hsame hne
  · exact absurd hreset hnotReset
  · obtain ⟨hfull, hzero, hmore⟩ := swap_of_act_ne (hact ▸ hne)
    exact ⟨hfull, hindex.trans hzero, hswaps.trans hmore, hbuf0, hbuf1, hby⟩

/-- Settles O30: what writes the active buffer leaves the output OFF (`exec_activeBuffer_cases`). -/
theorem runningBufferIsNeverWritten : Obligations.RunningBufferIsNeverWritten := by
  intro i s t ch hgood h _ hrunning
  refine (exec_activeBuffer_cases h ch (hgood.chan ch).playing_iff.mp).resolve_right fun hoff => ?_
  exact absurd (hoff.symm.trans hrunning) nofun

end Sys2Proof

/-! ## What an operation leaves alone (60_exceptions.md R422, 45_flow_controller.md R342) -/

namespace Sys2Proof.Machine

/-- A frame operation of channel `ch`. -/
def isFrameOf (ch : Chan) : Instr → Prop
  | .play c _ | .stop c _ | .volume c _ | .reset c _ | .data c _ => c = ch
  | _ => False

theorem isEvent_of_isFrameOf {ch : Chan} {i : Instr} (h : isFrameOf ch i) : i.isEvent = false := by
  cases i <;> first | rfl | exact h.elim

/-- A frame operation leaves the other channel as it is. -/
theorem frame_chan_other {ch : Chan} {i : Instr} {s t : State} (hi : isFrameOf ch i) (h : exec i s = .next t) :
    t.chan ch.other = s.chan ch.other := by
  have hne : ch ≠ ch.other := by cases ch <;> decide
  rcases frame_chan (isEvent_of_isFrameOf hi) h ch.other with
    e | ⟨_, _, rfl, _, _⟩ | ⟨_, rfl, _, _⟩ | ⟨_, rfl, _⟩ | ⟨_, rfl, _⟩ | ⟨_, rfl, _⟩
  · exact e
  all_goals exact absurd hi.symm hne

/-- Applying a frame operation is running it, at the state itself or at its closed capture. -/
theorem exec_of_runsFrame {i j : Instr} {s : State} (h : runsFrame i s j) :
    ∃ u : State, exec i s = exec j u ∧ ∀ ch, u.chan ch = s.chan ch := by
  rcases h with rfl | ⟨rfl, hcapturing, harmed, hdecode⟩
  · exact ⟨s, rfl, fun _ => rfl⟩
  · exact ⟨closeCapture s, execSelDeassert_ok hcapturing harmed hdecode, chan_closeCapture s⟩

theorem runsFrame_chan_other {ch : Chan} {i j : Instr} {s t : State} (hrun : runsFrame i s j) (hj : isFrameOf ch j)
    (h : exec i s = .next t) : t.chan ch.other = s.chan ch.other := by
  obtain ⟨u, hexec, hchan⟩ := exec_of_runsFrame hrun
  rw [frame_chan_other hj (hexec.symm.trans h), hchan]

theorem drainComplete_chan_other {ch : Chan} {s t : State} (h : exec (.drainComplete ch.toNat) s = .next t) :
    t.chan ch.other = s.chan ch.other := by
  rw [exec_drainComplete] at h
  split at h
  · split at h <;> cases h
    · rw [chan_endEvent, drainSwap_spec, chan_setChan_other]
      cases ch <;> rfl
    · rw [chan_endEvent, drainUnderrun_eq, chan_setChan_other, chan_emit]
  · cases h
    rw [chan_endEvent]

/-- The ready line depends on each channel's `is_playing` and index only (R340). -/
theorem flow_congr {s t : State}
    (h : ∀ ch, (t.chan ch).isPlaying = (s.chan ch).isPlaying ∧ (t.chan ch).fillIndex = (s.chan ch).fillIndex) :
    flow t = flow s := by
  obtain ⟨hplaying0, hindex0⟩ := h .ch0
  obtain ⟨hplaying1, hindex1⟩ := h .ch1
  simp only [chan_ch0, chan_ch1] at hplaying0 hindex0 hplaying1 hindex1
  rw [flow, flow, hplaying0, hindex0, hplaying1, hindex1]

/-- A channel is as it was where no frame is applied to it. -/
theorem FrameEffect.eq_of_no_frame {ob : Nat} {runs : Instr → Prop} {ch : Chan} {c c' : Channel}
    (e : FrameEffect ob runs ch c c') (hnone : ∀ j, j.isEvent = false → ¬ runs j) : c' = c := by
  rcases e with e | ⟨_, _, hrun, _, _⟩ | ⟨_, hrun, _, _⟩ | ⟨_, hrun, _⟩ | ⟨_, hrun, _⟩ | ⟨_, hrun, _⟩
  · exact e
  all_goals exact absurd hrun (hnone _ rfl)

/-- An event whose capture, if it closes one, is rejected applies no frame. -/
theorem not_runsFrame_of_event {i j : Instr} {s : State} (hi : i.isEvent = true)
    (hrejected : i = .selDeassert → ∃ r, decode s.captured = .error r) (hj : j.isEvent = false) :
    ¬ runsFrame i s j := by
  rintro (rfl | ⟨rfl, _, _, hdecode⟩)
  · exact absurd (hi.symm.trans hj) nofun
  · obtain ⟨r, herror⟩ := hrejected rfl
    cases herror.symm.trans hdecode

/-- An event that applies no frame, swaps no buffer and is not the system reset leaves the flow condition. -/
theorem flow_of_event {i : Instr} {s t : State} (h : exec i s = .next t) (hi : i.isEvent = true)
    (hnotReset : i ≠ .sysReset) (hrejected : i = .selDeassert → ∃ r, decode s.captured = .error r)
    (hnotFull : ∀ ch, i = .drainComplete ch.toNat → (s.chan ch).fillIndex ≠ 2048) : flow t = flow s := by
  refine flow_congr fun ch => ?_
  rcases exec_chan_cases h ch with e | ⟨_, hdrain, hfull, _, _⟩ | ⟨_, _, e⟩ | ⟨_, e⟩ | ⟨hreset, _⟩
  · rw [e.eq_of_no_frame fun _ => not_runsFrame_of_event hi hrejected]
    exact ⟨rfl, rfl⟩
  · exact absurd hfull (hnotFull ch hdrain.1)
  · rw [e]
    exact ⟨rfl, rfl⟩
  · rw [e]
    exact ⟨rfl, rfl⟩
  · exact absurd hreset hnotReset

end Sys2Proof.Machine

namespace Sys2Proof

open Machine

/-- Settles O60: a frame operation by `runsFrame_chan_other`, a drain-complete by `drainComplete_chan_other`. -/
theorem otherChannelIsUntouched : Obligations.OtherChannelIsUntouched := by
  intro i s t ch h hby
  rcases hby with ⟨p, hrun | hrun | hrun | hrun⟩ | ⟨xs, hrun⟩ | rfl
  case inr.inr => exact drainComplete_chan_other h
  all_goals exact runsFrame_chan_other hrun rfl h

/-- Settles O45: each of these is an event of `flow_of_event`, and the line is `flow` after every event. -/
theorem readyLineIgnoresTheseEvents : Obligations.ReadyLineIgnoresTheseEvents := by
  intro s t i hready h hquiet
  rw [exec_readyOut h, hready]
  rcases hquiet with rfl | rfl | ⟨b, rfl⟩ | ⟨n, rfl⟩ | ⟨off, size, rfl⟩ | ⟨off, size, v, rfl⟩ | ⟨rfl, hrejected⟩ |
    ⟨ch, rfl, hnotFull⟩
  case inr.inr.inr.inr.inr.inr.inl => exact flow_of_event h rfl nofun (fun _ => hrejected) nofun
  case inr.inr.inr.inr.inr.inr.inr =>
    refine flow_of_event h rfl nofun nofun fun ch' hsame => ?_
    have : ch' = ch := by cases ch <;> cases ch' <;> first | rfl | cases hsame
    rwa [this]
  all_goals exact flow_of_event h rfl nofun nofun nofun

end Sys2Proof

/-! ## Every step keeps the invariant of good states (10_state.md R57) -/

namespace Sys2Proof.Machine

/-! ### A good channel through each change -/

theorem BufSel.eq_other_of_ne {b b' : BufSel} (h : b ≠ b') : b = b'.other := by
  cases b <;> cases b' <;> first | rfl | exact absurd rfl h

section
variable {ob : Nat} {c : Channel}

theorem Channel.Good.buf_wf (h : c.Good ob) (b : BufSel) : (c.buf b).wf ob = true := by
  cases b
  · exact h.buf0_wf
  · exact h.buf1_wf

theorem Channel.Good.swap (h : c.Good ob) : c.swap.2.Good ob := by
  have hindex : c.swap.2.fillIndex ≤ Config.cap := by
    rw [swap_snd]
    dsimp only
    split
    · exact Nat.zero_le _
    · exact h.fillIndex_le
  refine ⟨hindex, ?_, ?_, ?_, ?_⟩ <;> rw [swap_snd]
  · exact h.playing_iff
  · exact h.volume_le
  · exact h.buf0_wf
  · exact h.buf1_wf

/-- PLAY and the swap path of DRAIN_COMPLETE leave a playing channel whose output is not OFF. -/
theorem Channel.Good.played (h : c.Good ob) {o : OutState} (ho : o ≠ .off) : (c.played o).Good ob :=
  ⟨h.swap.fillIndex_le, iff_of_false nofun ho, h.swap.volume_le, h.swap.buf0_wf, h.swap.buf1_wf⟩

theorem Channel.Good.drained (h : c.Good ob) (hplaying : c.isPlaying = true) {o : OutState} (ho : o ≠ .off) :
    (c.drained o).Good ob := by
  have hstill : (c.drained o).isPlaying = true := (swap_isPlaying c).trans hplaying
  refine ⟨h.swap.fillIndex_le, iff_of_false (fun hidle => ?_) ho, h.swap.volume_le, h.swap.buf0_wf, h.swap.buf1_wf⟩
  exact absurd (hidle.symm.trans hstill) nofun

theorem Channel.Good.stopped (h : c.Good ob) : ({ c with outState := .off, isPlaying := false } : Channel).Good ob :=
  ⟨h.fillIndex_le, iff_of_true rfl rfl, h.volume_le, h.buf0_wf, h.buf1_wf⟩

theorem Channel.Good.withVolume (h : c.Good ob) (v : Nat) :
    ({ c with volume := min v Config.volMax } : Channel).Good ob :=
  ⟨h.fillIndex_le, h.playing_iff, Nat.min_le_right _ _, h.buf0_wf, h.buf1_wf⟩

theorem Channel.Good.clear (h : c.Good ob) :
    (Channel.clear (if c.isPlaying then { c with outState := .off } else c)).Good ob := by
  rw [clear_stop]
  refine ⟨Nat.zero_le _, iff_of_true rfl ?_, h.volume_le, Slots.wf_midScale ob, Slots.wf_midScale ob⟩
  cases hplaying : c.isPlaying
  · exact h.playing_iff.mp hplaying
  · rfl

theorem Channel.Good.fill (h : c.Good ob) (xs : List Half) : (c.fill ob xs).2.Good ob := by
  have hfill := h.buf_wf c.act.other
  obtain ⟨-, -, -, hactive, hother, -⟩ := fillLoop_spec ob xs c hfill h.fillIndex_le
  rw [← fill_buf] at hactive hother
  have hbufs (b : BufSel) : ((c.fill ob xs).2.buf b).wf ob = true := by
    by_cases hb : b = c.act
    · rw [hb, hactive]
      exact h.buf_wf c.act
    · rw [BufSel.eq_other_of_ne hb]
      exact hother
  have hframe := fill_frame xs hfill h.fillIndex_le
  have hindex := congrArg Channel.fillIndex hframe
  dsimp only at hindex
  refine ⟨?_, ?_, ?_, hbufs .b0, hbufs .b1⟩
  · have := h.fillIndex_le
    omega
  · rw [hframe]
    exact h.playing_iff
  · rw [hframe]
    exact h.volume_le

theorem Channel.Good.underrun (h : c.Good ob) :
    ({ c with underrun := true, underruns := c.underruns + 1 } : Channel).Good ob :=
  ⟨h.fillIndex_le, h.playing_iff, h.volume_le, h.buf0_wf, h.buf1_wf⟩

theorem Channel.Good.clearCounters (h : c.Good ob) : c.clearCounters.Good ob :=
  ⟨h.fillIndex_le, h.playing_iff, h.volume_le, h.buf0_wf, h.buf1_wf⟩

end

/-! ### A good state through an operation -/

theorem State.Good.enginesGood {s : State} (h : s.Good) : s.EnginesGood
  | .ch0 => h.engine0
  | .ch1 => h.engine1

theorem State.Good.rxOk {s : State} (h : s.Good) : s.rx.Ok := ⟨h.idle, h.count_le, h.land_wf⟩

theorem exec_chan_good {i : Instr} {s t : State} (h : exec i s = .next t) (ch : Chan)
    (hs : (s.chan ch).Good s.params.outBits) : (t.chan ch).Good s.params.outBits := by
  rcases exec_chan_cases h ch with
    (e | ⟨p, o, -, ho, e⟩ | ⟨p, -, -, e⟩ | ⟨p, -, e⟩ | ⟨p, -, e⟩ | ⟨xs, -, e⟩) |
    ⟨o, ⟨-, hplaying, -⟩, -, ho, e⟩ | ⟨-, -, e⟩ | ⟨-, e⟩ | ⟨-, e⟩ <;> rw [e]
  · exact hs
  · exact hs.played ho
  · exact hs.stopped
  · exact hs.withVolume _
  · exact hs.clear
  · exact hs.fill xs
  · exact hs.drained hplaying ho
  · exact hs.underrun
  · exact hs.clearCounters
  · exact channel_reset_good _

/-- Every operation keeps the invariant: each item by its own lemma about `exec`. -/
theorem exec_good {i : Instr} {s t : State} (hs : s.Good) (h : exec i s = .next t) : t.Good ∧ t.params = s.params := by
  obtain ⟨hparams, hengines⟩ := exec_ext h
  have hengines := hengines hs.enginesGood
  obtain ⟨hidle, hcount, hland⟩ := exec_rx h hs.rxOk
  refine ⟨?_, hparams⟩
  constructor
  case outBits_pos => exact hparams ▸ hs.outBits_pos
  case outBits_le => exact hparams ▸ hs.outBits_le
  case c0 => exact hparams ▸ exec_chan_good h .ch0 (hs.chan .ch0)
  case c1 => exact hparams ▸ exec_chan_good h .ch1 (hs.chan .ch1)
  case clk => exact exec_clk h hs.clk
  case idle => exact hidle
  case count_le => exact hcount
  case ready => exact exec_readyOut h
  case land_wf => exact hland
  case engine0 => exact hengines .ch0
  case engine1 => exact hengines .ch1

/-! ### A good state through what happens outside the block -/

/-- A change of the environment and the collaborators that keeps the engines' agreement keeps the invariant. -/
theorem State.Good.outside {s t : State} (hs : s.Good) (h : t = { s with env := t.env, ext := t.ext })
    (hengines : t.EnginesGood) : t.Good ∧ t.params = s.params := by
  have hengine0 := hengines .ch0
  have hengine1 := hengines .ch1
  rw [h] at hengine0 hengine1 ⊢
  exact ⟨⟨hs.outBits_pos, hs.outBits_le, hs.c0, hs.c1, hs.clk, hs.idle, hs.count_le, hs.ready, hs.land_wf,
    hengine0, hengine1⟩, rfl⟩

/-- Changes outside the block that move no engine keep the engines' agreement. -/
theorem State.EnginesGood.outside {s t : State} (hs : s.EnginesGood) (h : t = { s with env := t.env, ext := t.ext })
    (hengine : ∀ ch, t.ext.engine ch = s.ext.engine ch) : t.EnginesGood :=
  hs.congr (fun ch => by rw [h]; cases ch <;> rfl) hengine

theorem phaseClock_good {s : State} (hs : s.Good) : (phaseClock s).Good ∧ (phaseClock s).params = s.params := by
  obtain ⟨hframe, hengine, -⟩ := phaseClock_spec s
  exact hs.outside hframe (hs.enginesGood.outside hframe hengine)

theorem passTime_good {s : State} (hs : s.Good) : (passTime s).Good ∧ (passTime s).params = s.params := by
  obtain ⟨hframe, hengine⟩ := passTime_spec s
  have hframe' : passTime s = { s with env := (passTime s).env, ext := (passTime s).ext } := by
    rw [passTime_env]
    exact hframe
  exact hs.outside hframe' (hs.enginesGood.outside hframe' hengine)

theorem tick_good {s : State} (hs : s.Good) : (tick s).Good ∧ (tick s).params = s.params := by
  obtain ⟨hframe, hengines⟩ := tick_keeps s
  exact hs.outside hframe (hengines hs.enginesGood)

theorem takeEvent_good {s t : State} {i : Instr} (hs : s.Good) (h : takeEvent s = some (i, t)) :
    t.Good ∧ t.params = s.params := by
  obtain ⟨_, -, -, hframe, -⟩ := takeEvent_spec h
  have hext : t.ext = s.ext := by rw [hframe]
  have hframe' : t = { s with env := t.env, ext := t.ext } := by
    rw [hext]
    exact hframe
  exact hs.outside hframe' (hs.enginesGood.outside hframe' fun ch => by rw [hext])

end Sys2Proof.Machine

namespace Sys2Proof

open Machine

/-- Settles O56: a step is a tick, or time passing with nothing taken, or time passing and an event taken and run
(`step_cases`), and each of these keeps the invariant. -/
theorem stepKeepsGood : Obligations.StepKeepsGood := by
  intro s t hs h
  obtain ⟨hphased, hparams⟩ := phaseClock_good hs
  rcases step_cases h with rfl | ⟨-, rfl⟩ | ⟨i, u, htake, -, hexec⟩
  case inl =>
    obtain ⟨hgood, hsame⟩ := tick_good hphased
    exact ⟨hgood, hsame.trans hparams⟩
  case inr.inl =>
    obtain ⟨hgood, hsame⟩ := passTime_good hphased
    exact ⟨hgood, hsame.trans hparams⟩
  case inr.inr =>
    obtain ⟨hpassed, hpassedParams⟩ := passTime_good hphased
    obtain ⟨htaken, htakenParams⟩ := takeEvent_good hpassed htake
    obtain ⟨hgood, hsame⟩ := exec_good htaken hexec
    exact ⟨hgood, hsame.trans (htakenParams.trans (hpassedParams.trans hparams))⟩

end Sys2Proof
